-- ==== Sys2Proof/Word.lean ====
section
/-! DEFINITION. The word, byte and memory-cell types and the register names (spec/00_scope.md R7, R8,
spec/10_state.md R20, spec/20_memory.md R50). -/

namespace Sys2Proof

/-- A 16-bit word: register contents, addresses, instruction words (R7, R8). -/
abbrev Word := BitVec 16

/-- An 8-bit byte: a console character, a trap vector, a byte of a binary image (R7, R205, R273). -/
abbrev Byte := BitVec 8

/-- One cell of memory: a word address and the 16-bit word there (R50). The addressable unit is the
word: "Memory holds words, not bytes" (R56). DEDUCED, safe: log entry 1. -/
abbrev Cell := Nat × Word

/-- The eight general registers R0 to R7 (R20). -/
inductive Reg where
  | r0 | r1 | r2 | r3 | r4 | r5 | r6 | r7
  deriving DecidableEq, Repr

end Sys2Proof
end

