-- ==== Sys2Proof/Syntax.lean ====
section
/-! DEFINITION. The instructions: one constructor per row of spec/opcode_table.json. Operands carry the
width the spec's format gives them (spec/30_encoding.md R87-R99); the unused bits of a word are no operand,
because decode ignores them (R103). -/

namespace Sys2Proof

/-- The instructions. ADD and AND have two rows each (register and immediate mode); JSR and JSRR share
opcode 4; the six trap services have rows of their own, and `trap` stands for every other vector. -/
inductive Instr where
  /-- BR nzp, PCoffset9 (R91, R140). -/
  | br (nzp : BitVec 3) (off : BitVec 9)
  /-- ADD DR, SR1, SR2 (R88, R120). -/
  | addReg (dr sr1 sr2 : Reg)
  /-- ADD DR, SR1, imm5 (R89, R121). -/
  | addImm (dr sr1 : Reg) (imm : BitVec 5)
  /-- LD DR, PCoffset9 (R95, R166). -/
  | ld (dr : Reg) (off : BitVec 9)
  /-- ST SR, PCoffset9 (R95, R167). -/
  | st (sr : Reg) (off : BitVec 9)
  /-- JSRR BaseR (R94, R145). -/
  | jsrr (base : Reg)
  /-- JSR PCoffset11 (R93, R144). -/
  | jsr (off : BitVec 11)
  /-- AND DR, SR1, SR2 (R88, R123). -/
  | andReg (dr sr1 sr2 : Reg)
  /-- AND DR, SR1, imm5 (R89, R124). -/
  | andImm (dr sr1 : Reg) (imm : BitVec 5)
  /-- LDR DR, BaseR, PCoffset6 (R96, R168). -/
  | ldr (dr base : Reg) (off : BitVec 6)
  /-- STR SR, BaseR, PCoffset6 (R96, R169). -/
  | str (sr base : Reg) (off : BitVec 6)
  /-- RTI (R97, R190). -/
  | rti
  /-- NOT DR, SR (R90, R126). -/
  | not (dr sr : Reg)
  /-- LDI DR, PCoffset9 (R95, R170). -/
  | ldi (dr : Reg) (off : BitVec 9)
  /-- STI SR, PCoffset9 (R95, R171). -/
  | sti (sr : Reg) (off : BitVec 9)
  /-- JMP BaseR; RET is JMP R7 (R92, R142). -/
  | jmp (base : Reg)
  /-- RES (R97, R191). -/
  | res
  /-- LEA DR, PCoffset9 (R95, R172). -/
  | lea (dr : Reg) (off : BitVec 9)
  /-- TRAP with a vector that names no service (R98, R200, R214). -/
  | trap (vec : Byte)
  /-- TRAP 0x20, GETC (R206). -/
  | getc
  /-- TRAP 0x21, OUT (R207). -/
  | out
  /-- TRAP 0x22, PUTS (R208). -/
  | puts
  /-- TRAP 0x23, IN (R211). -/
  | inp
  /-- TRAP 0x24, PUTSP (R212). -/
  | putsp
  /-- TRAP 0x25, HALT (R213). -/
  | halt
  deriving DecidableEq, Repr

end Sys2Proof
end

