-- ==== Sys2Proof/WellFormed.lean ====
section
/-! DEFINITION. Which terms of `Instr` stand for a word's decoding. Every operand's width is in its type, so
one check remains: the vectors 0x20 to 0x25 have constructors of their own (spec/45_trap.md R200). -/

namespace Sys2Proof

/-- The vector names one of the six services GETC, OUT, PUTS, IN, PUTSP, HALT (R105, R200). -/
def isServiceVector (vec : Byte) : Bool := decide (0x20#8 ≤ vec ∧ vec ≤ 0x25#8)

/-- Well-formed: a term that some word decodes to. DESIGN CHOICE, safe: log entry 8. -/
def Instr.wellFormed : Instr → Bool
  | .trap vec => !isServiceVector vec
  | .br _ _ | .addReg _ _ _ | .addImm _ _ _ | .ld _ _ | .st _ _ | .jsrr _ | .jsr _ | .andReg _ _ _
  | .andImm _ _ _ | .ldr _ _ _ | .str _ _ _ | .rti | .not _ _ | .ldi _ _ | .sti _ _ | .jmp _ | .res
  | .lea _ _ | .getc | .out | .puts | .inp | .putsp | .halt => true

end Sys2Proof
end

