-- ==== Sys2Proof/Decode.lean ====
section
/-! DEFINITION. Decode and encode (spec/30_encoding.md). The opcode's place (bits 15-12) and the trap
vector's (bits 7-0) are the source's own; every other field position is the one rules R87-R101 state and
mark as general knowledge. UNVERIFIED, unsafe: log entry 2. -/

namespace Sys2Proof

/-- `get_bits(v, start, count)`: the `count`-bit field of `v` that starts at bit `start` (R13). Every use
below stays within bits 15 to 0. -/
def getBits (v : Word) (start count : Nat) : BitVec count := v.extractLsb' start count

/-- The register that a 3-bit index field names (R87). -/
def Reg.ofBits (b : BitVec 3) : Reg :=
  match b.getLsbD 2, b.getLsbD 1, b.getLsbD 0 with
  | false, false, false => .r0
  | false, false, true => .r1
  | false, true, false => .r2
  | false, true, true => .r3
  | true, false, false => .r4
  | true, false, true => .r5
  | true, true, false => .r6
  | true, true, true => .r7

/-- The 3-bit index of a register (R87). -/
def Reg.toBits : Reg → BitVec 3
  | .r0 => 0b000#3
  | .r1 => 0b001#3
  | .r2 => 0b010#3
  | .r3 => 0b011#3
  | .r4 => 0b100#3
  | .r5 => 0b101#3
  | .r6 => 0b110#3
  | .r7 => 0b111#3

/-- The register named by the field at bits start+2 .. start. -/
def regAt (ir : Word) (start : Nat) : Reg := Reg.ofBits (getBits ir start 3)

/-- Opcode 1: the mode bit IR[5] selects the second operand (R88, R89, R100). -/
def decodeAdd (ir : Word) : Instr :=
  match ir.getLsbD 5 with
  | false => .addReg (regAt ir 9) (regAt ir 6) (regAt ir 0)
  | true => .addImm (regAt ir 9) (regAt ir 6) (getBits ir 0 5)

/-- Opcode 5: the mode bit IR[5] selects the second operand (R88, R89, R100). -/
def decodeAnd (ir : Word) : Instr :=
  match ir.getLsbD 5 with
  | false => .andReg (regAt ir 9) (regAt ir 6) (regAt ir 0)
  | true => .andImm (regAt ir 9) (regAt ir 6) (getBits ir 0 5)

/-- Opcode 4: the long-flag bit IR[11] selects JSR or JSRR (R93, R94, R101). -/
def decodeJsr (ir : Word) : Instr :=
  match ir.getLsbD 11 with
  | false => .jsrr (regAt ir 6)
  | true => .jsr (getBits ir 0 11)

/-- Opcode 15: the low 8 bits are the vector (R98, R105, R200). -/
def decodeTrap (ir : Word) : Instr :=
  let vec := getBits ir 0 8
  if vec = 0x20#8 then .getc
  else if vec = 0x21#8 then .out
  else if vec = 0x22#8 then .puts
  else if vec = 0x23#8 then .inp
  else if vec = 0x24#8 then .putsp
  else if vec = 0x25#8 then .halt
  else .trap vec

/-- The decoder: bits 15-12 select one of 16 variants (R82, R84). Total: every word is an instruction, so
nothing is rejected (R85, R102). The arms are the binary column of the opcode map. -/
def decode (ir : Word) : Instr :=
  match ir.getLsbD 15, ir.getLsbD 14, ir.getLsbD 13, ir.getLsbD 12 with
  | false, false, false, false => .br (getBits ir 9 3) (getBits ir 0 9)
  | false, false, false, true => decodeAdd ir
  | false, false, true, false => .ld (regAt ir 9) (getBits ir 0 9)
  | false, false, true, true => .st (regAt ir 9) (getBits ir 0 9)
  | false, true, false, false => decodeJsr ir
  | false, true, false, true => decodeAnd ir
  | false, true, true, false => .ldr (regAt ir 9) (regAt ir 6) (getBits ir 0 6)
  | false, true, true, true => .str (regAt ir 9) (regAt ir 6) (getBits ir 0 6)
  | true, false, false, false => .rti
  | true, false, false, true => .not (regAt ir 9) (regAt ir 6)
  | true, false, true, false => .ldi (regAt ir 9) (getBits ir 0 9)
  | true, false, true, true => .sti (regAt ir 9) (getBits ir 0 9)
  | true, true, false, false => .jmp (regAt ir 6)
  | true, true, false, true => .res
  | true, true, true, false => .lea (regAt ir 9) (getBits ir 0 9)
  | true, true, true, true => decodeTrap ir

/-- `decodeTableWord nbits w`: the decoder's reading of the instruction whose bits are `w`, `nbits` of them.
Every instruction is one 16-bit word (R107), so more than 16 bits is no instruction. -/
def decodeTableWord (nbits w : Nat) : Option Instr :=
  if nbits ≤ 16 then some (decode (BitVec.ofNat 16 (w % 2 ^ nbits))) else none

/-- The 4-bit opcode of an instruction (R84). -/
def Instr.opcode : Instr → BitVec 4
  | .br _ _ => 0#4
  | .addReg _ _ _ | .addImm _ _ _ => 1#4
  | .ld _ _ => 2#4
  | .st _ _ => 3#4
  | .jsrr _ | .jsr _ => 4#4
  | .andReg _ _ _ | .andImm _ _ _ => 5#4
  | .ldr _ _ _ => 6#4
  | .str _ _ _ => 7#4
  | .rti => 8#4
  | .not _ _ => 9#4
  | .ldi _ _ => 10#4
  | .sti _ _ => 11#4
  | .jmp _ => 12#4
  | .res => 13#4
  | .lea _ _ => 14#4
  | .trap _ | .getc | .out | .puts | .inp | .putsp | .halt => 15#4

/-- The encoder: the word the formats R88-R98 give an instruction, fields from bit 15 down. Unused bits are
0, but for NOT's filler 111111 (R90). DESIGN CHOICE, safe: log entry 9. -/
def encode : Instr → Word
  | .br nzp off => 0b0000#4 ++ nzp ++ off
  | .addReg dr sr1 sr2 => 0b0001#4 ++ dr.toBits ++ sr1.toBits ++ 0b0#1 ++ 0b00#2 ++ sr2.toBits
  | .addImm dr sr1 imm => 0b0001#4 ++ dr.toBits ++ sr1.toBits ++ 0b1#1 ++ imm
  | .ld dr off => 0b0010#4 ++ dr.toBits ++ off
  | .st sr off => 0b0011#4 ++ sr.toBits ++ off
  | .jsrr base => 0b0100#4 ++ 0b0#1 ++ 0b00#2 ++ base.toBits ++ 0b000000#6
  | .jsr off => 0b0100#4 ++ 0b1#1 ++ off
  | .andReg dr sr1 sr2 => 0b0101#4 ++ dr.toBits ++ sr1.toBits ++ 0b0#1 ++ 0b00#2 ++ sr2.toBits
  | .andImm dr sr1 imm => 0b0101#4 ++ dr.toBits ++ sr1.toBits ++ 0b1#1 ++ imm
  | .ldr dr base off => 0b0110#4 ++ dr.toBits ++ base.toBits ++ off
  | .str sr base off => 0b0111#4 ++ sr.toBits ++ base.toBits ++ off
  | .rti => 0b1000#4 ++ 0x000#12
  | .not dr sr => 0b1001#4 ++ dr.toBits ++ sr.toBits ++ 0b111111#6
  | .ldi dr off => 0b1010#4 ++ dr.toBits ++ off
  | .sti sr off => 0b1011#4 ++ sr.toBits ++ off
  | .jmp base => 0b1100#4 ++ 0b000#3 ++ base.toBits ++ 0b000000#6
  | .res => 0b1101#4 ++ 0x000#12
  | .lea dr off => 0b1110#4 ++ dr.toBits ++ off
  | .trap vec => 0b1111#4 ++ 0b0000#4 ++ vec
  | .getc => 0b1111#4 ++ 0b0000#4 ++ 0x20#8
  | .out => 0b1111#4 ++ 0b0000#4 ++ 0x21#8
  | .puts => 0b1111#4 ++ 0b0000#4 ++ 0x22#8
  | .inp => 0b1111#4 ++ 0b0000#4 ++ 0x23#8
  | .putsp => 0b1111#4 ++ 0b0000#4 ++ 0x24#8
  | .halt => 0b1111#4 ++ 0b0000#4 ++ 0x25#8

/-- The bits of a word that decode does not read, by instruction (R103): ADD and AND register mode 4:3;
NOT 5:0; JMP 11:9 and 5:0; JSRR 10:9 and 5:0; RTI and RES 11:0; TRAP 11:8. -/
def Instr.unusedBits : Instr → Word
  | .addReg _ _ _ | .andReg _ _ _ => 0x0018#16
  | .not _ _ => 0x003F#16
  | .jmp _ => 0x0E3F#16
  | .jsrr _ => 0x063F#16
  | .rti | .res => 0x0FFF#16
  | .trap _ | .getc | .out | .puts | .inp | .putsp | .halt => 0x0F00#16
  | .br _ _ | .addImm _ _ _ | .ld _ _ | .st _ _ | .jsr _ | .andImm _ _ _ | .ldr _ _ _ | .str _ _ _
  | .ldi _ _ | .sti _ _ | .lea _ _ => 0x0000#16

end Sys2Proof
end

