-- ==== Sys2Proof/Config.lean ====
section
/-! DEFINITION. What the spec fixes as parameters of the hardware (spec/00_scope.md R7). The one open
parameter, ORIGIN_PLAUSIBLE (R280), is "a predicate on 16-bit words that the model takes as an argument":
it is an argument of the loader in Machine/Boot.lean and has no value here. The spec leaves no result
undefined after an instruction, so there is no free value. -/

namespace Sys2Proof.Config

/-- MEMSIZE: the number of words of memory, 65536 (R7, R50). -/
abbrev memSize : Nat := 65536

/-- START_DEFAULT: the conventional start address 0x3000 (R7, R60, R278). -/
abbrev startDefault : Word := 0x3000#16

end Sys2Proof.Config
end

