-- ==== Sys2Proof/Machine/State.lean ====
section
/-! DEFINITION. The machine's state as plain data, its value after reset, and the reasons a step can stop
(spec/10_state.md R20-R41, spec/20_memory.md R50-R51, spec/45_trap.md R202). -/

namespace Sys2Proof.Machine

/-- RUN_STATE (R33). The codes stand in Machine/Ops.lean. -/
inductive RunState where
  /-- The core fetches and executes. -/
  | running
  /-- The run ended by HALT, RTI or RES. -/
  | halted
  /-- The run ended by a console failure. -/
  | faulted
  /-- No run: from reset until a successful load, and after a LoadError. -/
  | idle
  deriving DecidableEq, Repr

/-- HALT_CAUSE (R34), meaningful only in HALTED. -/
inductive HaltCause where
  | none | trapHalt | opRti | opRes
  deriving DecidableEq, Repr

/-- FAULT_CAUSE (R35), meaningful only in FAULTED. Its fourth code is never produced. -/
inductive FaultCause where
  | none | inputEnd | outputFail
  deriving DecidableEq, Repr

/-- The two opcodes that have no implementation (R104). -/
inductive ReservedOp where
  | rti | res
  deriving DecidableEq, Repr

/-- The kind of a notice (R202). A notice has no bytes in the model (D7). -/
inductive Notice where
  | inPrompt
  | haltNotice
  | unimplementedTrap (vec : Byte)
  | unimplementedOpcode (op : ReservedOp)
  deriving DecidableEq, Repr

/-- An event on the console output port (R202). -/
inductive Event where
  | char (b : Byte)
  | notice (k : Notice)
  deriving DecidableEq, Repr

/-- The host's answer to a console read (R204). -/
inductive CinAnswer where
  | byte (b : Byte)
  | endOfInput
  deriving DecidableEq, Repr

/-- The host's answer to an output event (R203). -/
inductive CoutAnswer where
  | ok
  | fail
  deriving DecidableEq, Repr

/-- The answers the host will give on one port: `script` first, oldest first, then `after` to every later
transaction; `after = none` says that the host never answers again, and the core waits for ever (R204, R255).
The model's own field, the host's liberty as plain data: log entries 3 and 4. -/
structure Answers (α : Type) where
  script : List α
  after : Option α
  deriving DecidableEq, Repr

/-- The register file's eight words (R20). -/
structure Regs where
  r0 : Word
  r1 : Word
  r2 : Word
  r3 : Word
  r4 : Word
  r5 : Word
  r6 : Word
  r7 : Word
  deriving DecidableEq, Repr

/-- Memory: cells in strictly rising address order, none holding 0x0000, which is what an unlisted word
reads as (R51). The canonical form is `Memory.wf` in Machine/Ops.lean. -/
abbrev Memory := List Cell

/-- The machine's state between two steps (R39, R40). `cin` and `cout` are the host's answers to come. -/
structure State where
  /-- R0 to R7 (R20). -/
  regs : Regs
  /-- The program counter, a word address (R26). -/
  pc : Word
  /-- COND, one-hot: P = 0b001, Z = 0b010, N = 0b100 (R29). -/
  cond : BitVec 3
  /-- 65536 words (R50). -/
  mem : Memory
  /-- RUN_STATE (R33). -/
  runState : RunState
  /-- HALT_CAUSE (R34). -/
  haltCause : HaltCause
  /-- FAULT_CAUSE (R35). -/
  faultCause : FaultCause
  /-- The output history, oldest event first (R40). -/
  output : List Event
  /-- The host's answers to the console reads to come (R204). -/
  cin : Answers CinAnswer
  /-- The host's answers to the output events to come (R203). -/
  cout : Answers CoutAnswer
  deriving DecidableEq, Repr

/-- The machine right after reset (R41): registers 0, PC 0, COND = ZERO, memory 0, IDLE, no cause, no
output. The host's answers are not core state: no bytes and then End, and Ok to every output event
(DESIGN CHOICE, unsafe: log entries 3 and 4). -/
def State.reset : State :=
  { regs := ⟨0x0000#16, 0x0000#16, 0x0000#16, 0x0000#16, 0x0000#16, 0x0000#16, 0x0000#16, 0x0000#16⟩
    pc := 0x0000#16
    cond := 0b010#3
    mem := []
    runState := .idle
    haltCause := .none
    faultCause := .none
    output := []
    cin := ⟨[], some .endOfInput⟩
    cout := ⟨[], some .ok⟩ }

/-- Why a step has no next state. Every one of these is a step that never completes (stuck), not an
exception: the core has none (R240). -/
inductive Fault where
  /-- Raised by GETC and IN when the host never answers the read (R204, I8). Carries the state reached: the
  effects made so far stand. Safe: the model stops where the hardware waits. -/
  | inputWait (reached : State)
  /-- Raised by every instruction that emits an event (RTI, RES, TRAP, OUT, PUTS, IN, PUTSP, HALT) when the
  host never answers it (R203). Carries the state reached. Safe: the model stops where the hardware waits. -/
  | outputWait (reached : State)
  /-- Raised by PUTS and PUTSP when no word of memory ends the string and the host accepts every character:
  the step never ends (R209, I12). Carries the state reached, with the link write made and every character
  accepted so far in its output, and the string address the scan goes on at (R39): no bound on the scan is
  the last, and a longer one only adds characters. Safe: the model stops where the hardware runs for ever. -/
  | neverEnds (reached : State) (next : Word)
  deriving DecidableEq, Repr

/-- Why an instruction has no meaning. -/
inductive Refusal where
  /-- Raised by an arm of `exec` whose instruction has no meaning yet; no arm does. Safe. -/
  | notModelled (mnemonic : String)
  deriving DecidableEq, Repr

/-- What an instruction's meaning answers. -/
abbrev Result := Host.Outcome State Fault Refusal

end Sys2Proof.Machine
end

