-- ==== Sys2Proof/Machine/Flags.lean ====
section
/-! DEFINITION. The condition flag (spec/00_scope.md R15, spec/10_state.md R29-R30, spec/30_encoding.md R91). -/

namespace Sys2Proof.Machine

/-- POSITIVE = 0b001 (R29). -/
def condP : BitVec 3 := 0b001#3

/-- ZERO = 0b010 (R29). -/
def condZ : BitVec 3 := 0b010#3

/-- NEGATIVE = 0b100 (R29). -/
def condN : BitVec 3 := 0b100#3

/-- `cc(v)`: Z if `v` is 0, N if bit 15 is set, P otherwise (R15). -/
def cc (v : Word) : BitVec 3 := if v = 0x0000#16 then condZ else if v.msb then condN else condP

/-- BR's test: a mask bit and COND's bit are both set. The mask's weights equal COND's (R91, R140). -/
def branchTaken (nzp cond : BitVec 3) : Bool := decide (nzp &&& cond ≠ 0b000#3)

end Sys2Proof.Machine
end

