-- ==== Sys2Proof/Machine/Ops.lean ====
section
/-! DEFINITION. The named operations over registers, memory, console and run state that the meanings are
written with (spec/00_scope.md R12-R16, spec/10_state.md R23-R35, spec/20_memory.md R50-R53,
spec/45_trap.md R200-R204). -/

namespace Sys2Proof.Machine

/-- The word of register `r` (R14, R20). -/
def Regs.get (g : Regs) : Reg → Word
  | .r0 => g.r0
  | .r1 => g.r1
  | .r2 => g.r2
  | .r3 => g.r3
  | .r4 => g.r4
  | .r5 => g.r5
  | .r6 => g.r6
  | .r7 => g.r7

/-- The register file with `v` in register `r`. No register is hard-wired (R20). -/
def Regs.set (g : Regs) (r : Reg) (v : Word) : Regs :=
  match r with
  | .r0 => { g with r0 := v }
  | .r1 => { g with r1 := v }
  | .r2 => { g with r2 := v }
  | .r3 => { g with r3 := v }
  | .r4 => { g with r4 := v }
  | .r5 => { g with r5 := v }
  | .r6 => { g with r6 := v }
  | .r7 => { g with r7 := v }

/-- `x[i]` (R14). -/
def State.reg (s : State) (r : Reg) : Word := s.regs.get r

/-- `x[i] <- v`, the plain write, which leaves COND (R14, R24). -/
def State.setReg (s : State) (r : Reg) (v : Word) : State := { s with regs := s.regs.set r v }

/-- `WriteDR(i, v)`: the register write that also sets COND (R14, R23). -/
def State.writeDR (s : State) (r : Reg) (v : Word) : State :=
  { s with regs := s.regs.set r v, cond := cc v }

/-- `pc <- target`; COND is unchanged (R14, R27). -/
def State.writePc (s : State) (target : Word) : State := { s with pc := target }

/-- The fetch advance, modulo 2^16 (R26, R81). -/
def State.advancePc (s : State) : State := s.writePc (s.pc + 0x0001#16)

/-- The link write of JSR, JSRR and TRAP: `x[7] <- PC'`, COND unchanged (R24). -/
def State.linkPc (s : State) : State := s.setReg .r7 s.pc

/-- The word at address `a`; an unlisted word holds 0x0000 (R51). -/
def Memory.read (m : Memory) (a : Nat) : Word :=
  match m with
  | [] => 0x0000#16
  | (b, w) :: rest => if b = a then w else Memory.read rest a

/-- Puts the cell (a, v) in its place, over the cell of the same address if there is one. -/
def Memory.insert (m : Memory) (a : Nat) (v : Word) : Memory :=
  match m with
  | [] => [(a, v)]
  | (b, w) :: rest =>
    if a < b then (a, v) :: (b, w) :: rest
    else if a = b then (a, v) :: rest
    else (b, w) :: Memory.insert rest a v

/-- The memory with the word `v` at address `a`, in canonical form: writing 0x0000, which an unlisted word
holds, takes the cell out. -/
def Memory.write (m : Memory) (a : Nat) (v : Word) : Memory :=
  if v = 0x0000#16 then m.filter (fun c => c.1 != a) else Memory.insert m a v

/-- The cells' addresses rise strictly from at least `lo`, lie below MEMSIZE, and no cell holds 0x0000. -/
def Memory.wfFrom (lo : Nat) (m : Memory) : Bool :=
  match m with
  | [] => true
  | (a, v) :: rest =>
    decide (lo ≤ a) && decide (a < Config.memSize) && decide (v ≠ 0x0000#16) && Memory.wfFrom (a + 1) rest

/-- Memory is in its canonical form. -/
def Memory.wf (m : Memory) : Bool := Memory.wfFrom 0 m

/-- `MemRead(addr, 1)`: always succeeds (R12, R53). -/
def State.memRead (s : State) (addr : Word) : Word := Memory.read s.mem addr.toNat

/-- `MemWrite(addr, 1, v)`: always succeeds (R12, R53). -/
def State.memWrite (s : State) (addr v : Word) : State :=
  { s with mem := Memory.write s.mem addr.toNat v }

/-- `halt(cause)`: the run ends HALTED (R16, R34). -/
def State.halt (s : State) (cause : HaltCause) : State :=
  { s with runState := .halted, haltCause := cause }

/-- `raise Fault(cause)`: the run ends FAULTED (R16, R35). The core has no other exception: no pc or status
is saved and no handler runs (R240, R241). -/
def State.raiseFault (s : State) (cause : FaultCause) : State :=
  { s with runState := .faulted, faultCause := cause }

/-- Trap entry: saves PC' in R7 and nothing else; no mode, mask or stack changes and the PC is not written
(R200, R246). Trap return needs no operation: the PC already holds PC' (R201, R247). -/
def State.trapEntry (s : State) : State := s.linkPc

/-- The host's next answer and the answers after it; none: the host never answers (R204, R255). -/
def Answers.take {α : Type} (q : Answers α) : Option (α × Answers α) :=
  match q.script, q.after with
  | a :: rest, e => some (a, ⟨rest, e⟩)
  | [], some a => some (a, ⟨[], some a⟩)
  | [], none => none

/-- One transaction on `cout` (R203): on Ok the event enters the output history and the instruction goes on
with `k`; on Fail the core raises OUTPUT_FAIL and makes no further effect; without an answer the step never
completes. -/
def emit (e : Event) (s : State) (k : State → Result) : Result :=
  match s.cout.take with
  | some (.ok, rest) => k { s with output := s.output ++ [e], cout := rest }
  | some (.fail, rest) => .next (State.raiseFault { s with cout := rest } .outputFail)
  | none => .fault (.outputWait s)

/-- `ConsoleRead()`, one transaction on `cin` (R204): a byte goes to `k`; End raises INPUT_END (R206, R211);
without an answer the step never completes. -/
def consoleRead (s : State) (k : Byte → State → Result) : Result :=
  match s.cin.take with
  | some (.byte b, rest) => k b { s with cin := rest }
  | some (.endOfInput, rest) => .next (State.raiseFault { s with cin := rest } .inputEnd)
  | none => .fault (.inputWait s)

/-- `ConsoleWrite(b)`: emits `Char(b)` (R16). -/
def consoleWrite (b : Byte) (s : State) (k : State → Result) : Result := emit (.char b) s k

/-- `Notice(k)`: emits a notice of a kind (R16, R202). -/
def emitNotice (n : Notice) (s : State) (k : State → Result) : Result := emit (.notice n) s k

/-- A notice, then `halt(cause)`: the shared shape of RTI, RES and HALT (R190, R191, R213). -/
def noticeThenHalt (n : Notice) (cause : HaltCause) (s : State) : Result :=
  emitNotice n s (fun t => .next (t.halt cause))

/-- RUN_STATE's code (R33). -/
def RunState.code : RunState → BitVec 2
  | .running => 0b00#2
  | .halted => 0b01#2
  | .faulted => 0b10#2
  | .idle => 0b11#2

/-- HALT_CAUSE's code (R34). -/
def HaltCause.code : HaltCause → BitVec 2
  | .none => 0b00#2
  | .trapHalt => 0b01#2
  | .opRti => 0b10#2
  | .opRes => 0b11#2

/-- FAULT_CAUSE's code (R35). -/
def FaultCause.code : FaultCause → BitVec 2
  | .none => 0b00#2
  | .inputEnd => 0b01#2
  | .outputFail => 0b10#2

end Sys2Proof.Machine
end

