-- ==== Sys2Proof/Machine/Operands.lean ====
section
/-! DEFINITION. The operand forms: immediates, addressing modes and the bytes of a word
(spec/00_scope.md R10, R11, spec/30_encoding.md R99-R101, spec/43_loadstore.md R160-R165). -/

namespace Sys2Proof.Machine

/-- `sext_N(v)`: the two's-complement value of an N-bit field as a 16-bit word (R10). No field is scaled (R99). -/
def sext {n : Nat} (v : BitVec n) : Word := v.signExtend 16

/-- `zext_8(b)`: the byte with zero bits above it (R11). -/
def zext8 (b : Byte) : Word := b.setWidth 16

/-- `w[7:0]` (R205, R207). -/
def lowByte (w : Word) : Byte := w.extractLsb' 0 8

/-- `w[15:8]` (R205, R212). -/
def highByte (w : Word) : Byte := w.extractLsb' 8 8

/-- PC-relative: `PC' + sext_9(PCoffset9)`. The PC already holds PC' when a handler runs (R160, R161). -/
def eaPcRel (s : State) (off : BitVec 9) : Word := s.pc + sext off

/-- JSR's target: `PC' + sext_11(PCoffset11)` (R101, R144). -/
def eaPcRel11 (s : State) (off : BitVec 11) : Word := s.pc + sext off

/-- Base + offset: `x[BaseR] + sext_6(PCoffset6)` (R160, R162). -/
def eaBase (s : State) (base : Reg) (off : BitVec 6) : Word := s.reg base + sext off

/-- Indirect: the pointer word read at the PC-relative address (R160, R163). -/
def eaIndirect (s : State) (off : BitVec 9) : Word := s.memRead (eaPcRel s off)

end Sys2Proof.Machine
end

