-- ==== Sys2Proof/Machine/Control.lean ====
section
/-! DEFINITION. The control transfers BR, JMP, JSR, JSRR (spec/42_control.md R140-R147). -/

namespace Sys2Proof.Machine

/-- BR (R140): taken if the mask and COND share a bit; writes no flag. -/
def execBr (nzp : BitVec 3) (off : BitVec 9) (s : State) : Result :=
  .next (if branchTaken nzp s.cond then s.writePc (eaPcRel s off) else s)

/-- JMP (R142); RET is JMP R7. -/
def execJmp (base : Reg) (s : State) : Result :=
  .next (s.writePc (s.reg base))

/-- JSR (R144): link, then PC' + offset. -/
def execJsr (off : BitVec 11) (s : State) : Result :=
  .next (s.linkPc.writePc (eaPcRel11 s off))

/-- JSRR (R145): BaseR is read before the link write, so `JSRR R7` jumps to the old R7. The spec's own
decision D5 (UNVERIFIED, unsafe: log entry 12). -/
def execJsrr (base : Reg) (s : State) : Result :=
  .next (s.linkPc.writePc (s.reg base))

end Sys2Proof.Machine
end

