-- ==== Sys2Proof/Machine/LoadStore.lean ====
section
/-! DEFINITION. Loads, stores and LEA (spec/43_loadstore.md R160-R172). -/

namespace Sys2Proof.Machine

/-- LD (R166). -/
def execLd (dr : Reg) (off : BitVec 9) (s : State) : Result :=
  .next (s.writeDR dr (s.memRead (eaPcRel s off)))

/-- ST (R167): no flag. -/
def execSt (sr : Reg) (off : BitVec 9) (s : State) : Result :=
  .next (s.memWrite (eaPcRel s off) (s.reg sr))

/-- LDR (R168): the address uses the old BaseR, also where DR is BaseR. -/
def execLdr (dr base : Reg) (off : BitVec 6) (s : State) : Result :=
  .next (s.writeDR dr (s.memRead (eaBase s base off)))

/-- STR (R169). -/
def execStr (sr base : Reg) (off : BitVec 6) (s : State) : Result :=
  .next (s.memWrite (eaBase s base off) (s.reg sr))

/-- LDI (R170): first the pointer, then the data. -/
def execLdi (dr : Reg) (off : BitVec 9) (s : State) : Result :=
  .next (s.writeDR dr (s.memRead (eaIndirect s off)))

/-- STI (R171): the pointer is read before the write. -/
def execSti (sr : Reg) (off : BitVec 9) (s : State) : Result :=
  .next (s.memWrite (eaIndirect s off) (s.reg sr))

/-- LEA (R172): the address itself, no access; sets COND. -/
def execLea (dr : Reg) (off : BitVec 9) (s : State) : Result :=
  .next (s.writeDR dr (eaPcRel s off))

end Sys2Proof.Machine
end

