-- ==== Sys2Proof/Machine/Operate.lean ====
section
/-! DEFINITION. The operate instructions ADD, AND, NOT (spec/41_operate.md R120-R126). Each meaning runs on
the state after the fetch advance, so `pc` is PC'. -/

namespace Sys2Proof.Machine

/-- ADD, register mode (R120): the 16-bit sum modulo 2^16. -/
def execAddReg (dr sr1 sr2 : Reg) (s : State) : Result :=
  .next (s.writeDR dr (s.reg sr1 + s.reg sr2))

/-- ADD, immediate mode (R121). -/
def execAddImm (dr sr1 : Reg) (imm : BitVec 5) (s : State) : Result :=
  .next (s.writeDR dr (s.reg sr1 + sext imm))

/-- AND, register mode (R123). -/
def execAndReg (dr sr1 sr2 : Reg) (s : State) : Result :=
  .next (s.writeDR dr (s.reg sr1 &&& s.reg sr2))

/-- AND, immediate mode (R124). -/
def execAndImm (dr sr1 : Reg) (imm : BitVec 5) (s : State) : Result :=
  .next (s.writeDR dr (s.reg sr1 &&& sext imm))

/-- NOT (R126). -/
def execNot (dr sr : Reg) (s : State) : Result :=
  .next (s.writeDR dr (~~~(s.reg sr)))

end Sys2Proof.Machine
end

