-- ==== Sys2Proof/Machine/Terminal.lean ====
section
/-! DEFINITION. The opcodes that end the run, RTI and RES (spec/44_terminal.md R190-R192). -/

namespace Sys2Proof.Machine

/-- RTI (R190): the notice, then halt(OP_RTI). It restores nothing. -/
def execRti (s : State) : Result := noticeThenHalt (.unimplementedOpcode .rti) .opRti s

/-- RES (R191): the notice, then halt(OP_RES). -/
def execRes (s : State) : Result := noticeThenHalt (.unimplementedOpcode .res) .opRes s

end Sys2Proof.Machine
end

