-- ==== Sys2Proof/Machine/Trap.lean ====
section
/-! DEFINITION. The trap dispatcher and the console services (spec/45_trap.md R200-R215). A service is part
of the one step of its TRAP (R215). -/

namespace Sys2Proof.Machine

/-- GETC's service (R206): read, no echo; R0's high byte is cleared and COND set (D6: log entry 13). -/
def serviceGetc (s : State) : Result :=
  consoleRead s (fun b t => .next (t.writeDR .r0 (zext8 b)))

/-- OUT's service (R207): R0's low byte. -/
def serviceOut (s : State) : Result := consoleWrite (lowByte (s.reg .r0)) s .next

/-- PUTS's scan from address `a` (R208): one character a word, its low byte, until a zero word; the address
wraps. `fuel` bounds the words read; where it runs out the scan has not ended, and the answer carries the state
reached and the address it goes on at (R209). -/
def putsFrom (fuel : Nat) (a : Word) (s : State) : Result :=
  match fuel with
  | 0 => .fault (.neverEnds s a)
  | n + 1 =>
    if s.memRead a = 0x0000#16 then .next s
    else consoleWrite (lowByte (s.memRead a)) s (fun t => putsFrom n (a + 0x0001#16) t)

/-- PUTSP's scan from address `a` (R212): the low byte, then the high byte, of each word, until either is
zero; the address wraps. `fuel` as in `putsFrom`. -/
def putspFrom (fuel : Nat) (a : Word) (s : State) : Result :=
  match fuel with
  | 0 => .fault (.neverEnds s a)
  | n + 1 =>
    if lowByte (s.memRead a) = 0x00#8 then .next s
    else consoleWrite (lowByte (s.memRead a)) s (fun t =>
      if highByte (s.memRead a) = 0x00#8 then .next t
      else consoleWrite (highByte (s.memRead a)) t (fun u => putspFrom n (a + 0x0001#16) u))

/-- Words enough to settle a scan: past the host's scripted answers, one more lap of memory finds a
terminator, or an answer that ends it, or shows that it never ends (R209; DEDUCED, safe: log entry 6). -/
def scanFuel (s : State) : Nat := s.cout.script.length + Config.memSize

/-- PUTS's service (R208). -/
def servicePuts (s : State) : Result := putsFrom (scanFuel s) (s.reg .r0) s

/-- IN's service (R211): prompt, read, echo, store. -/
def serviceIn (s : State) : Result :=
  emitNotice .inPrompt s (fun t =>
    consoleRead t (fun b u =>
      consoleWrite b u (fun v => .next (v.writeDR .r0 (zext8 b)))))

/-- PUTSP's service (R212). -/
def servicePutsp (s : State) : Result := putspFrom (scanFuel s) (s.reg .r0) s

/-- HALT's service (R213). -/
def serviceHalt (s : State) : Result := noticeThenHalt .haltNotice .trapHalt s

/-- UNKNOWN(vec) (R214): report, and the run goes on at PC' (R201, R242). -/
def serviceUnknown (vec : Byte) (s : State) : Result := emitNotice (.unimplementedTrap vec) s .next

/-- The dispatcher's `case vec of` (R200). -/
def dispatchTrap (vec : Byte) (s : State) : Result :=
  if vec = 0x20#8 then serviceGetc s
  else if vec = 0x21#8 then serviceOut s
  else if vec = 0x22#8 then servicePuts s
  else if vec = 0x23#8 then serviceIn s
  else if vec = 0x24#8 then servicePutsp s
  else if vec = 0x25#8 then serviceHalt s
  else serviceUnknown vec s

/-- TRAP (R200). A well-formed term's vector names no service, so UNKNOWN runs; the term with a service's
vector, which no word decodes to, runs that service (log entry 8). -/
def execTrap (vec : Byte) (s : State) : Result := dispatchTrap vec s.trapEntry

/-- GETC, TRAP 0x20 (R200, R206). -/
def execGetc (s : State) : Result := serviceGetc s.trapEntry

/-- OUT, TRAP 0x21 (R200, R207). -/
def execOut (s : State) : Result := serviceOut s.trapEntry

/-- PUTS, TRAP 0x22 (R200, R208). -/
def execPuts (s : State) : Result := servicePuts s.trapEntry

/-- IN, TRAP 0x23 (R200, R211). -/
def execIn (s : State) : Result := serviceIn s.trapEntry

/-- PUTSP, TRAP 0x24 (R200, R212). -/
def execPutsp (s : State) : Result := servicePutsp s.trapEntry

/-- HALT, TRAP 0x25 (R200, R213). -/
def execHalt (s : State) : Result := serviceHalt s.trapEntry

end Sys2Proof.Machine
end

