-- ==== Sys2Proof/Machine/Step.lean ====
section
/-! DEFINITION. One step (spec/30_encoding.md R80-R86) and the placing of an instruction where the next step
fetches it. -/

namespace Sys2Proof.Machine

/-- `Step()` (R86): nothing unless RUNNING (R37); else fetch the word at the PC, advance the PC, decode,
dispatch. -/
def step (s : State) : Host.Outcome State Fault Refusal :=
  match s.runState with
  | .running => exec (decode (s.memRead s.pc)) s.advancePc
  | .halted => .next s
  | .faulted => .next s
  | .idle => .next s

/-- `s` with the instruction word `w` of `nbits` bits at the PC and RUN_STATE = RUNNING, so that the next step
runs it. It stands for a load from outside (R270; log entry 10). -/
def State.withFetchWord (s : State) (nbits w : Nat) : State :=
  { s.memWrite s.pc (BitVec.ofNat 16 (w % 2 ^ nbits)) with runState := .running }

end Sys2Proof.Machine
end

