-- ==== Sys2Proof/Machine/Boot.lean ====
section
/-! DEFINITION. Reset and boot: the loader of a binary image (spec/70_reset_and_hazards.md R270-R282). An
operation of the host's `boot` port, outside `step` (DESIGN CHOICE, safe: log entry 10). -/

namespace Sys2Proof.Machine

/-- What the `boot` port answers (R36, R273). -/
inductive LoadAnswer where
  | started (start : Word)
  | loadError
  deriving DecidableEq, Repr

/-- The image's words, two bytes each, the first byte bits 15-8 (R274, R275); none if the number of bytes is
odd (R273). -/
def imageWords (bytes : List Byte) : Option (List Word) :=
  match bytes with
  | [] => some []
  | [_] => none
  | hi :: lo :: rest => (imageWords rest).map (fun ws => (hi ++ lo) :: ws)

/-- Writes the words at addresses `a`, `a + 1`, ... in order (R276, R278). -/
def loadWords (a : Nat) (ws : List Word) (m : Memory) : Memory :=
  match ws with
  | [] => m
  | w :: rest => loadWords (a + 1) rest (Memory.write m a w)

/-- Places `ws` from address `start` on in zeroed memory; none if a word would lie past 0xFFFF (R279, D12). -/
def placeWords (start : Word) (ws : List Word) : Option (Word × Memory) :=
  if start.toNat + ws.length ≤ Config.memSize then some (start, loadWords start.toNat ws []) else none

/-- The loader: the start address and the memory, or none for LoadError (R273-R279). `plausible` is the open
parameter ORIGIN_PLAUSIBLE (R280): where it holds of the first word, that word is the origin and is not itself
written (R276); where it does not, the whole image goes to 0x3000 (R278). -/
def loadImage (plausible : Word → Bool) (image : List Byte) : Option (Word × Memory) :=
  match imageWords image with
  | none => none
  | some [] => none
  | some (w0 :: ws) =>
    if plausible w0 then placeWords w0 ws else placeWords Config.startDefault (w0 :: ws)

/-- The reset state with the host's answers to come kept: they are the host's, not the core's
(DESIGN CHOICE, safe: log entry 11). -/
def resetCore (s : State) : State := { State.reset with cin := s.cin, cout := s.cout }

/-- Reset and boot (R270, R282): zero everything, load, then set the PC and enter RUNNING; after a LoadError
RUN_STATE stays IDLE (R279). -/
def boot (plausible : Word → Bool) (image : List Byte) (s : State) : State × LoadAnswer :=
  match loadImage plausible image with
  | some (start, m) => ({ resetCore s with mem := m, pc := start, runState := .running }, .started start)
  | none => (resetCore s, .loadError)

end Sys2Proof.Machine
end

