-- ==== Sys2Proof/Machine/Ports.lean ====
section
/-! DEFINITION. The host's `step` and `status` ports (spec/10_state.md R36, R37). The `observe` port is the
fields of State and `State.reg`, `State.memRead`; the `boot` port is Machine/Boot.lean. -/

namespace Sys2Proof.Machine

/-- Run-to-halt, at most `n` steps: single steps until RUN_STATE is not RUNNING (R36, R37). -/
def runToHalt (n : Nat) (s : State) : Result :=
  match n with
  | 0 => .next s
  | k + 1 =>
    match step s with
    | .next t => if t.runState = .running then runToHalt k t else .next t
    | .fault r => .fault r
    | .refused r => .refused r

/-- The `status` port: the codes of RUN_STATE, HALT_CAUSE and FAULT_CAUSE (R33-R36). -/
def State.status (s : State) : BitVec 2 × BitVec 2 × BitVec 2 :=
  (s.runState.code, s.haltCause.code, s.faultCause.code)

end Sys2Proof.Machine
end

