-- ==== Sys2Proof/Safety.lean ====
section
/-! DEFINITION. The words that statements about the machine are written in: the invariant, what a step leaves
unchanged, which instructions the spec lets write what, and the host's answers. -/

namespace Sys2Proof.Machine

/-- COND holds exactly one of its three values (spec/10_state.md R29). -/
abbrev State.condLegal (s : State) : Prop := s.cond = 0b001#3 ∨ s.cond = 0b010#3 ∨ s.cond = 0b100#3

/-- The cause registers agree with RUN_STATE (R34, R35, R41): a cause is set exactly in its own terminal state. -/
abbrev State.causesAgree (s : State) : Prop :=
  (s.haltCause = .none ↔ s.runState ≠ .halted) ∧ (s.faultCause = .none ↔ s.runState ≠ .faulted)

/-- The invariant of the machine: canonical memory, a legal COND, causes that agree with RUN_STATE. -/
abbrev State.Inv (s : State) : Prop := Memory.wf s.mem = true ∧ s.condLegal ∧ s.causesAgree

/-- Every register but `d` reads as before. -/
def SameRegsBut (d : Reg) (s t : State) : Prop := ∀ r : Reg, r ≠ d → t.reg r = s.reg r

/-- Every register reads as before. -/
def SameRegs (s t : State) : Prop := ∀ r : Reg, t.reg r = s.reg r

/-- Every word of memory reads as before. -/
def SameMem (s t : State) : Prop := ∀ a : Word, t.memRead a = s.memRead a

/-- Every word of memory but the one at `ea` reads as before. -/
def SameMemBut (ea : Word) (s t : State) : Prop := ∀ a : Word, a ≠ ea → t.memRead a = s.memRead a

/-- RUN_STATE, HALT_CAUSE and FAULT_CAUSE are as before. -/
def SameStatus (s t : State) : Prop :=
  t.runState = s.runState ∧ t.haltCause = s.haltCause ∧ t.faultCause = s.faultCause

/-- The output history and the host's answers to come are as before: no console transaction was made. -/
def SameConsole (s t : State) : Prop := t.output = s.output ∧ t.cin = s.cin ∧ t.cout = s.cout

/-- What an instruction that writes DR through WriteDR leaves: DR holds `v`, COND is `v`'s flag (R15), and
nothing else changed. -/
def WroteDR (d : Reg) (v : Word) (s t : State) : Prop :=
  t.reg d = v ∧ SameRegsBut d s t ∧
  t.cond = (if v = 0x0000#16 then 0b010#3 else if v.getLsbD 15 then 0b100#3 else 0b001#3) ∧
  t.pc = s.pc ∧ SameMem s t ∧ SameStatus s t ∧ SameConsole s t

/-- What a store leaves: the word at `ea` is `v`, and nothing else changed, COND included (R30). -/
def StoredAt (ea v : Word) (s t : State) : Prop :=
  t.memRead ea = v ∧ SameMemBut ea s t ∧ SameRegs s t ∧ t.cond = s.cond ∧ t.pc = s.pc ∧
  SameStatus s t ∧ SameConsole s t

/-- Only R7 (= PC') and what the statement says beside it change in a TRAP: the other registers but R0, the
PC and memory are as before (R200, R210). -/
def TrapFrame (s t : State) : Prop :=
  t.reg .r7 = s.pc ∧ (∀ r : Reg, r ≠ .r7 → r ≠ .r0 → t.reg r = s.reg r) ∧ t.pc = s.pc ∧ SameMem s t

/-- A TRAP that so far made its link write and console transactions only: R0 and COND are as before too. -/
def LinkedOnly (s t : State) : Prop := TrapFrame s t ∧ t.reg .r0 = s.reg .r0 ∧ t.cond = s.cond

/-- The run ended by a failed output event (R203, R241). -/
def FaultedOutput (s t : State) : Prop :=
  t.runState = .faulted ∧ t.faultCause = .outputFail ∧ t.haltCause = s.haltCause

/-- The run ended by the end of input (R206, R241). -/
def FaultedInput (s t : State) : Prop :=
  t.runState = .faulted ∧ t.faultCause = .inputEnd ∧ t.haltCause = s.haltCause

/-- The register an instruction writes through WriteDR (R23). -/
def writeDRTarget : Instr → Option Reg
  | .addReg d _ _ | .addImm d _ _ | .andReg d _ _ | .andImm d _ _ | .not d _ | .ld d _ | .ldr d _ _
  | .ldi d _ | .lea d _ => some d
  | .getc | .inp => some .r0
  | .br _ _ | .st _ _ | .jsrr _ | .jsr _ | .str _ _ _ | .rti | .sti _ _ | .jmp _ | .res | .trap _
  | .out | .puts | .putsp | .halt => none

/-- The instructions that write the PC after the fetch (R27). -/
def writesPc : Instr → Bool
  | .br _ _ | .jmp _ | .jsr _ | .jsrr _ => true
  | .addReg _ _ _ | .addImm _ _ _ | .andReg _ _ _ | .andImm _ _ _ | .not _ _ | .ld _ _ | .ldr _ _ _
  | .ldi _ _ | .lea _ _ | .st _ _ | .str _ _ _ | .sti _ _ | .rti | .res | .trap _ | .getc | .out
  | .puts | .inp | .putsp | .halt => false

/-- The address an instruction stores to, computed as its meaning computes it (R54, R55); none for an
instruction that stores nothing. -/
def storeAddress (i : Instr) (s : State) : Option Word :=
  match i with
  | .st _ off => some (eaPcRel s off)
  | .str _ base off => some (eaBase s base off)
  | .sti _ off => some (eaIndirect s off)
  | .br _ _ | .jmp _ | .jsr _ | .jsrr _ | .addReg _ _ _ | .addImm _ _ _ | .andReg _ _ _
  | .andImm _ _ _ | .not _ _ | .ld _ _ | .ldr _ _ _ | .ldi _ _ | .lea _ _ | .rti | .res | .trap _
  | .getc | .out | .puts | .inp | .putsp | .halt => none

/-- The instructions that are a TRAP (R200). -/
def isTrap : Instr → Bool
  | .trap _ | .getc | .out | .puts | .inp | .putsp | .halt => true
  | .br _ _ | .jmp _ | .jsr _ | .jsrr _ | .addReg _ _ _ | .addImm _ _ _ | .andReg _ _ _
  | .andImm _ _ _ | .not _ _ | .ld _ _ | .ldr _ _ _ | .ldi _ _ | .lea _ _ | .st _ _ | .str _ _ _
  | .sti _ _ | .rti | .res => false

/-- The answers left after the host answers Ok to the next `n` output events; none if it does not (R203). -/
def oks (n : Nat) (q : Answers CoutAnswer) : Option (Answers CoutAnswer) :=
  match n with
  | 0 => some q
  | k + 1 =>
    match q.take with
    | some (.ok, rest) => oks k rest
    | some (.fail, _) => none
    | none => none

/-- The `k`-th address of a scan from R0, modulo 2^16 (R208, R212). -/
def scanAddr (s : State) (k : Nat) : Word := s.reg .r0 + BitVec.ofNat 16 k

/-- The characters PUTS writes for the first `k` words of the string at R0: the low bytes (R208). -/
def putsChars (s : State) (k : Nat) : List Event :=
  (List.range k).map (fun j => Event.char (lowByte (s.memRead (scanAddr s j))))

/-- The characters PUTSP writes for the first `k` words of the string at R0: low byte, then high byte (R212). -/
def putspChars (s : State) (k : Nat) : List Event :=
  (List.range k).flatMap (fun j =>
    [Event.char (lowByte (s.memRead (scanAddr s j))), Event.char (highByte (s.memRead (scanAddr s j)))])

/-- What a scan without an end has done after `m` characters: the link write made, the host's answers to
those characters used up, `es` written, and nothing else changed (R209, R210). -/
def ScanReached (m : Nat) (es : List Event) (s u : State) : Prop :=
  LinkedOnly s u ∧ u.output = s.output ++ es ∧ oks m s.cout = some u.cout ∧ u.cin = s.cin ∧ SameStatus s u

/-- A result with COND set to zero in the state it carries: what is left when COND is not looked at (R30). -/
def eraseCond (r : Result) : Result :=
  match r with
  | .next t => .next { t with cond := 0b000#3 }
  | .fault (.inputWait t) => .fault (.inputWait { t with cond := 0b000#3 })
  | .fault (.outputWait t) => .fault (.outputWait { t with cond := 0b000#3 })
  | .fault (.neverEnds t a) => .fault (.neverEnds { t with cond := 0b000#3 } a)
  | .refused q => .refused q

end Sys2Proof.Machine
end

