-- ==== Sys2Proof/Certificates/Slice0/Obligations.lean ====
section
/-! DEFINITION. The statements for the provers. `exec` runs on the state after the fetch advance, so in a
statement about `exec i s` the field `s.pc` is the spec's PC'. `ir` is the instruction word the spec's
pseudocode reads its fields from; a statement that names a field's bits rests on the field positions of
spec/30_encoding.md R87-R101 (log entry 2). -/

open Sys2Proof Sys2Proof.Machine

/-! ### The instruction cycle -/

/-- R80, R81: a RUNNING core fetches the word at the PC and adds one to the PC, 0xFFFF giving 0x0000, before
the decoded instruction runs; no PC value makes the fetch stop. -/
def Obligations.StepFetchesAdvancesAndDispatches : Prop :=
  ∀ s : State, s.runState = .running →
    step s = exec (decode (s.memRead s.pc)) { s with pc := s.pc + 0x0001#16 } ∧
    (s.pc = 0xFFFF#16 → step s = exec (decode (s.memRead 0xFFFF#16)) { s with pc := 0x0000#16 })

/-- R37, R283: a step outside RUNNING changes nothing, and run-to-halt is exactly repeated single steps. -/
def Obligations.RunToHaltIsRepeatedSteps : Prop :=
  (∀ s : State, s.runState ≠ .running → step s = .next s) ∧
  (∀ (n : Nat) (s : State), runToHalt n s = Host.Core.run Sys2Proof.core n s) ∧
  (∀ (n : Nat) (s t : State), runToHalt n s = .next t → t.runState ≠ .running →
    ∀ m : Nat, n ≤ m → runToHalt m s = .next t)

/-- R85, R102: every word decodes to an instruction, and none is refused in any state. -/
def Obligations.EveryWordIsAnInstruction : Prop :=
  ∀ ir : Word, (decode ir).wellFormed = true ∧ ∀ (s : State) (q : Refusal), exec (decode ir) s ≠ .refused q

/-- R82, R84: bits 15-12 select the variant; IR[11] selects JSR or JSRR and IR[5] the mode of ADD and AND. -/
def Obligations.OpcodeSelectsTheVariant : Prop :=
  ∀ ir : Word,
    (getBits ir 12 4 = 0x0#4 → ∃ m o, decode ir = .br m o) ∧
    (getBits ir 12 4 = 0x1#4 → ir.getLsbD 5 = false → ∃ d a b, decode ir = .addReg d a b) ∧
    (getBits ir 12 4 = 0x1#4 → ir.getLsbD 5 = true → ∃ d a k, decode ir = .addImm d a k) ∧
    (getBits ir 12 4 = 0x2#4 → ∃ d o, decode ir = .ld d o) ∧
    (getBits ir 12 4 = 0x3#4 → ∃ r o, decode ir = .st r o) ∧
    (getBits ir 12 4 = 0x4#4 → ir.getLsbD 11 = true → ∃ o, decode ir = .jsr o) ∧
    (getBits ir 12 4 = 0x4#4 → ir.getLsbD 11 = false → ∃ b, decode ir = .jsrr b) ∧
    (getBits ir 12 4 = 0x5#4 → ir.getLsbD 5 = false → ∃ d a b, decode ir = .andReg d a b) ∧
    (getBits ir 12 4 = 0x5#4 → ir.getLsbD 5 = true → ∃ d a k, decode ir = .andImm d a k) ∧
    (getBits ir 12 4 = 0x6#4 → ∃ d b o, decode ir = .ldr d b o) ∧
    (getBits ir 12 4 = 0x7#4 → ∃ r b o, decode ir = .str r b o) ∧
    (getBits ir 12 4 = 0x8#4 → decode ir = .rti) ∧
    (getBits ir 12 4 = 0x9#4 → ∃ d r, decode ir = .not d r) ∧
    (getBits ir 12 4 = 0xA#4 → ∃ d o, decode ir = .ldi d o) ∧
    (getBits ir 12 4 = 0xB#4 → ∃ r o, decode ir = .sti r o) ∧
    (getBits ir 12 4 = 0xC#4 → ∃ b, decode ir = .jmp b) ∧
    (getBits ir 12 4 = 0xD#4 → decode ir = .res) ∧
    (getBits ir 12 4 = 0xE#4 → ∃ d o, decode ir = .lea d o) ∧
    (getBits ir 12 4 = 0xF#4 → isTrap (decode ir) = true)

/-- R88-R98: decoding an encoded well-formed instruction gives it back, every operand at every value. -/
def Obligations.DecodeOfEncodeIsIdentity : Prop :=
  ∀ i : Instr, i.wellFormed = true → decode (encode i) = i

/-- R88-R98, R103: encoding a word's instruction gives the word back in every bit but the unused ones. -/
def Obligations.EncodeOfDecodeKeepsUsedBits : Prop :=
  ∀ ir : Word,
    encode (decode ir) &&& ~~~(decode ir).unusedBits = ir &&& ~~~(decode ir).unusedBits

/-- R103: two words of an opcode that differ in its unused bits only are the same instruction: ADD and AND
register mode 4:3, NOT 5:0, JMP 11:9 and 5:0, JSRR 10:9 and 5:0, RTI and RES 11:0, TRAP 11:8. -/
def Obligations.UnusedBitsAreIgnored : Prop :=
  ∀ v w : Word,
    ((getBits v 12 4 = 0x1#4 ∨ getBits v 12 4 = 0x5#4) → v.getLsbD 5 = false →
      v ||| 0x0018#16 = w ||| 0x0018#16 → decode v = decode w) ∧
    (getBits v 12 4 = 0x9#4 → v ||| 0x003F#16 = w ||| 0x003F#16 → decode v = decode w) ∧
    (getBits v 12 4 = 0xC#4 → v ||| 0x0E3F#16 = w ||| 0x0E3F#16 → decode v = decode w) ∧
    (getBits v 12 4 = 0x4#4 → v.getLsbD 11 = false →
      v ||| 0x063F#16 = w ||| 0x063F#16 → decode v = decode w) ∧
    ((getBits v 12 4 = 0x8#4 ∨ getBits v 12 4 = 0xD#4) →
      v ||| 0x0FFF#16 = w ||| 0x0FFF#16 → decode v = decode w) ∧
    (getBits v 12 4 = 0xF#4 → v ||| 0x0F00#16 = w ||| 0x0F00#16 → decode v = decode w)

/-- The words of the spec's own examples decode to the instructions it names (R120-R214, R109). -/
def Obligations.ExampleWordsDecode : Prop :=
  decode 0x1443#16 = .addReg .r2 .r1 .r3 ∧ decode 0x1220#16 = .addImm .r1 .r0 0b00000#5 ∧
  decode 0x5042#16 = .andReg .r0 .r1 .r2 ∧ decode 0x5020#16 = .andImm .r0 .r0 0b00000#5 ∧
  decode 0x96BF#16 = .not .r3 .r2 ∧ decode 0x05FE#16 = .br 0b010#3 0b111111110#9 ∧
  decode 0xC1C0#16 = .jmp .r7 ∧ decode 0x4802#16 = .jsr 0b00000000010#11 ∧
  decode 0x40C0#16 = .jsrr .r3 ∧ decode 0x2205#16 = .ld .r1 0b000000101#9 ∧
  decode 0x3002#16 = .st .r0 0b000000010#9 ∧ decode 0x69C1#16 = .ldr .r4 .r7 0b000001#6 ∧
  decode 0x72BF#16 = .str .r1 .r2 0b111111#6 ∧ decode 0xA5FE#16 = .ldi .r2 0b111111110#9 ∧
  decode 0xB7FB#16 = .sti .r3 0b111111011#9 ∧ decode 0xE002#16 = .lea .r0 0b000000010#9 ∧
  decode 0x8000#16 = .rti ∧ decode 0xD000#16 = .res ∧ decode 0xF020#16 = .getc ∧
  decode 0xF021#16 = .out ∧ decode 0xF022#16 = .puts ∧ decode 0xF023#16 = .inp ∧
  decode 0xF024#16 = .putsp ∧ decode 0xFF25#16 = .halt ∧ decode 0xF026#16 = .trap 0x26#8

/-! ### Operate instructions -/

/-- R120: ADD, register mode. -/
def Obligations.AddRegisterWritesSum : Prop :=
  ∀ (ir : Word) (s : State), getBits ir 12 4 = 0x1#4 → ir.getLsbD 5 = false →
    decode ir = .addReg (regAt ir 9) (regAt ir 6) (regAt ir 0) ∧
    ∃ t, exec (.addReg (regAt ir 9) (regAt ir 6) (regAt ir 0)) s = .next t ∧
      WroteDR (regAt ir 9) (s.reg (regAt ir 6) + s.reg (regAt ir 0)) s t

/-- R121: ADD, immediate mode. -/
def Obligations.AddImmediateWritesSum : Prop :=
  ∀ (ir : Word) (s : State), getBits ir 12 4 = 0x1#4 → ir.getLsbD 5 = true →
    decode ir = .addImm (regAt ir 9) (regAt ir 6) (getBits ir 0 5) ∧
    ∃ t, exec (.addImm (regAt ir 9) (regAt ir 6) (getBits ir 0 5)) s = .next t ∧
      WroteDR (regAt ir 9) (s.reg (regAt ir 6) + sext (getBits ir 0 5)) s t

/-- R122: the result of ADD is the sum modulo 2^16 of the operands as unsigned words and the two's-complement
sum of the operands as signed words, wrapped into -32768 to 32767; no flag but COND records anything of it. -/
def Obligations.AddObeysTheIntegerLaw : Prop :=
  ∀ (s : State) (d a b : Reg), ∃ t, exec (.addReg d a b) s = .next t ∧
    (t.reg d).toNat = ((s.reg a).toNat + (s.reg b).toNat) % 2 ^ 16 ∧
    (t.reg d).toInt = ((s.reg a).toInt + (s.reg b).toInt).bmod (2 ^ 16) ∧
    -32768 ≤ (t.reg d).toInt ∧ (t.reg d).toInt ≤ 32767 ∧
    (t.cond = 0b010#3 ↔ (t.reg d).toInt = 0) ∧ (t.cond = 0b100#3 ↔ (t.reg d).toInt < 0) ∧
    (t.cond = 0b001#3 ↔ 0 < (t.reg d).toInt)

/-- R123: AND, register mode. -/
def Obligations.AndRegisterWritesConjunction : Prop :=
  ∀ (ir : Word) (s : State), getBits ir 12 4 = 0x5#4 → ir.getLsbD 5 = false →
    decode ir = .andReg (regAt ir 9) (regAt ir 6) (regAt ir 0) ∧
    ∃ t, exec (.andReg (regAt ir 9) (regAt ir 6) (regAt ir 0)) s = .next t ∧
      WroteDR (regAt ir 9) (s.reg (regAt ir 6) &&& s.reg (regAt ir 0)) s t

/-- R124: AND, immediate mode, the immediate sign-extended. -/
def Obligations.AndImmediateWritesConjunction : Prop :=
  ∀ (ir : Word) (s : State), getBits ir 12 4 = 0x5#4 → ir.getLsbD 5 = true →
    decode ir = .andImm (regAt ir 9) (regAt ir 6) (getBits ir 0 5) ∧
    ∃ t, exec (.andImm (regAt ir 9) (regAt ir 6) (getBits ir 0 5)) s = .next t ∧
      WroteDR (regAt ir 9) (s.reg (regAt ir 6) &&& sext (getBits ir 0 5)) s t

/-- R125: the immediate form writes the same DR and COND as the register form whose SR2 holds sext_5(k), also
where SR2 is another register than SR1 or DR is SR2. -/
def Obligations.ImmediateAndRegisterModesAgree : Prop :=
  ∀ (s : State) (d a b : Reg) (k : BitVec 5), s.reg b = sext k →
    (∃ t u, exec (.addImm d a k) s = .next t ∧ exec (.addReg d a b) s = .next u ∧
      t.reg d = u.reg d ∧ t.cond = u.cond) ∧
    (∃ t u, exec (.andImm d a k) s = .next t ∧ exec (.andReg d a b) s = .next u ∧
      t.reg d = u.reg d ∧ t.cond = u.cond)

/-- R126: NOT. -/
def Obligations.NotWritesComplement : Prop :=
  ∀ (ir : Word) (s : State), getBits ir 12 4 = 0x9#4 →
    decode ir = .not (regAt ir 9) (regAt ir 6) ∧
    ∃ t, exec (.not (regAt ir 9) (regAt ir 6)) s = .next t ∧
      WroteDR (regAt ir 9) (~~~(s.reg (regAt ir 6))) s t

/-! ### Control transfer -/

/-- R140: BR jumps to PC' + sext_9(offset) where the mask and COND share a bit, and else only falls through. -/
def Obligations.BranchJumpsWhenMaskMeetsCond : Prop :=
  ∀ (ir : Word) (s : State), getBits ir 12 4 = 0x0#4 →
    decode ir = .br (getBits ir 9 3) (getBits ir 0 9) ∧
    ∃ t, exec (.br (getBits ir 9 3) (getBits ir 0 9)) s = .next t ∧
      t.pc = (if getBits ir 9 3 &&& s.cond = 0b000#3 then s.pc else s.pc + sext (getBits ir 0 9)) ∧
      SameRegs s t ∧ t.cond = s.cond ∧ SameMem s t ∧ SameStatus s t ∧ SameConsole s t

/-- R91, R140, W4: with a legal COND the branch is taken exactly where the mask has COND's own bit; mask 111
always, mask 000 never (R106). -/
def Obligations.BranchTestsOneFlagBit : Prop :=
  ∀ (s : State) (m : BitVec 3) (off : BitVec 9), s.condLegal →
    (s.cond = 0b001#3 → exec (.br m off) s =
      .next (if m.getLsbD 0 then { s with pc := s.pc + sext off } else s)) ∧
    (s.cond = 0b010#3 → exec (.br m off) s =
      .next (if m.getLsbD 1 then { s with pc := s.pc + sext off } else s)) ∧
    (s.cond = 0b100#3 → exec (.br m off) s =
      .next (if m.getLsbD 2 then { s with pc := s.pc + sext off } else s)) ∧
    exec (.br 0b111#3 off) s = .next { s with pc := s.pc + sext off } ∧
    exec (.br 0b000#3 off) s = .next s

/-- R142: JMP, RET being JMP R7. -/
def Obligations.JumpGoesToBaseRegister : Prop :=
  ∀ (ir : Word) (s : State), getBits ir 12 4 = 0xC#4 →
    decode ir = .jmp (regAt ir 6) ∧
    ∃ t, exec (.jmp (regAt ir 6)) s = .next t ∧ t.pc = s.reg (regAt ir 6) ∧
      SameRegs s t ∧ t.cond = s.cond ∧ SameMem s t ∧ SameStatus s t ∧ SameConsole s t

/-- R144: JSR links PC' into R7 and jumps to PC' + sext_11(offset); COND is unchanged. -/
def Obligations.JsrLinksAndJumpsRelative : Prop :=
  ∀ (ir : Word) (s : State), getBits ir 12 4 = 0x4#4 → ir.getLsbD 11 = true →
    decode ir = .jsr (getBits ir 0 11) ∧
    ∃ t, exec (.jsr (getBits ir 0 11)) s = .next t ∧ t.reg .r7 = s.pc ∧
      t.pc = s.pc + sext (getBits ir 0 11) ∧ SameRegsBut .r7 s t ∧ t.cond = s.cond ∧
      SameMem s t ∧ SameStatus s t ∧ SameConsole s t

/-- R145: JSRR links PC' into R7 and jumps to BaseR's value before the link write, for BaseR = R7 too (the
spec's decision D5). -/
def Obligations.JsrrLinksAndJumpsToOldBase : Prop :=
  ∀ (ir : Word) (s : State), getBits ir 12 4 = 0x4#4 → ir.getLsbD 11 = false →
    decode ir = .jsrr (regAt ir 6) ∧
    ∃ t, exec (.jsrr (regAt ir 6)) s = .next t ∧ t.reg .r7 = s.pc ∧ t.pc = s.reg (regAt ir 6) ∧
      SameRegsBut .r7 s t ∧ t.cond = s.cond ∧ SameMem s t ∧ SameStatus s t ∧ SameConsole s t

/-- R24: JSR, JSRR and every TRAP write PC' into R7, and that write leaves COND; only GETC and IN change COND,
by their own WriteDR of R0. -/
def Obligations.LinkWriteLeavesCond : Prop :=
  ∀ (i : Instr) (s t : State), i.wellFormed = true →
    ((∃ off, i = .jsr off) ∨ (∃ b, i = .jsrr b) ∨ isTrap i = true) → exec i s = .next t →
    t.reg .r7 = s.pc ∧
    (i ≠ .getc → i ≠ .inp → t.cond = s.cond) ∧
    (i = .getc ∨ i = .inp → t.cond = s.cond ∧ t.reg .r0 = s.reg .r0 ∨ t.cond = cc (t.reg .r0))

/-! ### Loads, stores, LEA -/

/-- R166: LD. -/
def Obligations.LdLoadsPcRelative : Prop :=
  ∀ (ir : Word) (s : State), getBits ir 12 4 = 0x2#4 →
    decode ir = .ld (regAt ir 9) (getBits ir 0 9) ∧
    ∃ t, exec (.ld (regAt ir 9) (getBits ir 0 9)) s = .next t ∧
      WroteDR (regAt ir 9) (s.memRead (s.pc + sext (getBits ir 0 9))) s t

/-- R167: ST. -/
def Obligations.StStoresPcRelative : Prop :=
  ∀ (ir : Word) (s : State), getBits ir 12 4 = 0x3#4 →
    decode ir = .st (regAt ir 9) (getBits ir 0 9) ∧
    ∃ t, exec (.st (regAt ir 9) (getBits ir 0 9)) s = .next t ∧
      StoredAt (s.pc + sext (getBits ir 0 9)) (s.reg (regAt ir 9)) s t

/-- R168: LDR; the address uses the old BaseR. -/
def Obligations.LdrLoadsBaseOffset : Prop :=
  ∀ (ir : Word) (s : State), getBits ir 12 4 = 0x6#4 →
    decode ir = .ldr (regAt ir 9) (regAt ir 6) (getBits ir 0 6) ∧
    ∃ t, exec (.ldr (regAt ir 9) (regAt ir 6) (getBits ir 0 6)) s = .next t ∧
      WroteDR (regAt ir 9) (s.memRead (s.reg (regAt ir 6) + sext (getBits ir 0 6))) s t

/-- R169: STR. -/
def Obligations.StrStoresBaseOffset : Prop :=
  ∀ (ir : Word) (s : State), getBits ir 12 4 = 0x7#4 →
    decode ir = .str (regAt ir 9) (regAt ir 6) (getBits ir 0 6) ∧
    ∃ t, exec (.str (regAt ir 9) (regAt ir 6) (getBits ir 0 6)) s = .next t ∧
      StoredAt (s.reg (regAt ir 6) + sext (getBits ir 0 6)) (s.reg (regAt ir 9)) s t

/-- R170: LDI; the word read at the PC-relative address is the address of the data. -/
def Obligations.LdiLoadsThroughPointer : Prop :=
  ∀ (ir : Word) (s : State), getBits ir 12 4 = 0xA#4 →
    decode ir = .ldi (regAt ir 9) (getBits ir 0 9) ∧
    ∃ t, exec (.ldi (regAt ir 9) (getBits ir 0 9)) s = .next t ∧
      WroteDR (regAt ir 9) (s.memRead (s.memRead (s.pc + sext (getBits ir 0 9)))) s t

/-- R171: STI; the pointer is read before the write, so its own word may be the target. -/
def Obligations.StiStoresThroughPointer : Prop :=
  ∀ (ir : Word) (s : State), getBits ir 12 4 = 0xB#4 →
    decode ir = .sti (regAt ir 9) (getBits ir 0 9) ∧
    ∃ t, exec (.sti (regAt ir 9) (getBits ir 0 9)) s = .next t ∧
      StoredAt (s.memRead (s.pc + sext (getBits ir 0 9))) (s.reg (regAt ir 9)) s t

/-- R172: LEA; the address itself, and COND. -/
def Obligations.LeaWritesAddress : Prop :=
  ∀ (ir : Word) (s : State), getBits ir 12 4 = 0xE#4 →
    decode ir = .lea (regAt ir 9) (getBits ir 0 9) ∧
    ∃ t, exec (.lea (regAt ir 9) (getBits ir 0 9)) s = .next t ∧
      WroteDR (regAt ir 9) (s.pc + sext (getBits ir 0 9)) s t

/-- R69, R161, R162: an effective address is the base plus the signed offset, modulo 2^16, and the offsets
reach -256 to 255, -1024 to 1023 and -32 to 31 words. -/
def Obligations.EffectiveAddressesWrap : Prop :=
  ∀ (s : State) (b : Reg) (o9 : BitVec 9) (o11 : BitVec 11) (o6 : BitVec 6),
    eaPcRel s o9 = BitVec.ofInt 16 (s.pc.toNat + o9.toInt) ∧ -256 ≤ o9.toInt ∧ o9.toInt ≤ 255 ∧
    eaPcRel11 s o11 = BitVec.ofInt 16 (s.pc.toNat + o11.toInt) ∧ -1024 ≤ o11.toInt ∧ o11.toInt ≤ 1023 ∧
    eaBase s b o6 = BitVec.ofInt 16 ((s.reg b).toNat + o6.toInt) ∧ -32 ≤ o6.toInt ∧ o6.toInt ≤ 31

/-- R65, R66, R285: a store by ST, STR or STI to the address the PC then holds is what the very next step
fetches and runs; the store itself completed as decoded. -/
def Obligations.StoreIsSeenByTheNextFetch : Prop :=
  ∀ (i : Instr) (r : Reg) (s : State),
    ((∃ o, i = .st r o) ∨ (∃ b o, i = .str r b o) ∨ (∃ o, i = .sti r o)) →
    s.runState = .running → storeAddress i s = some s.pc →
    ∃ t, exec i s = .next t ∧ t.pc = s.pc ∧
      step t = exec (decode (s.reg r)) { t with pc := t.pc + 0x0001#16 }

/-! ### The opcodes that end the run -/

/-- R190, R191, R192: RTI and RES emit their notice and halt, whatever bits 11-0; where the host fails the
notice the run is FAULTED instead; without an answer the step waits. Afterwards no step has any effect. -/
def Obligations.RtiAndResEndTheRun : Prop :=
  ∀ (ir : Word) (s : State) (i : Instr) (op : ReservedOp) (cause : HaltCause),
    (getBits ir 12 4 = 0x8#4 ∧ i = .rti ∧ op = .rti ∧ cause = .opRti ∨
      getBits ir 12 4 = 0xD#4 ∧ i = .res ∧ op = .res ∧ cause = .opRes) →
    decode ir = i ∧
    (∀ rest, s.cout.take = some (.ok, rest) → ∃ t, exec i s = .next t ∧
      t.output = s.output ++ [.notice (.unimplementedOpcode op)] ∧ t.cout = rest ∧ t.cin = s.cin ∧
      t.runState = .halted ∧ t.haltCause = cause ∧ t.faultCause = s.faultCause ∧
      SameRegs s t ∧ t.cond = s.cond ∧ t.pc = s.pc ∧ SameMem s t ∧ step t = .next t) ∧
    (∀ rest, s.cout.take = some (.fail, rest) → ∃ t, exec i s = .next t ∧
      t.output = s.output ∧ t.cout = rest ∧ t.cin = s.cin ∧ FaultedOutput s t ∧
      SameRegs s t ∧ t.cond = s.cond ∧ t.pc = s.pc ∧ SameMem s t ∧ step t = .next t) ∧
    (s.cout.take = none → exec i s = .fault (.outputWait s))

/-! ### Trap services -/

/-- R200, R206: GETC reads one byte into R0, high byte 0 (the spec's decision D6), and sets COND; End faults
with R0 and COND unchanged; without an answer the step waits. -/
def Obligations.GetcReadsOneByte : Prop :=
  ∀ (ir : Word) (s : State), getBits ir 12 4 = 0xF#4 → getBits ir 0 8 = 0x20#8 →
    decode ir = .getc ∧
    (∀ b rest, s.cin.take = some (.byte b, rest) → ∃ t, exec .getc s = .next t ∧ TrapFrame s t ∧
      t.reg .r0 = 0x00#8 ++ b ∧ t.cond = (if b = 0x00#8 then 0b010#3 else 0b001#3) ∧
      t.cin = rest ∧ t.output = s.output ∧ t.cout = s.cout ∧ SameStatus s t) ∧
    (∀ rest, s.cin.take = some (.endOfInput, rest) → ∃ t, exec .getc s = .next t ∧ TrapFrame s t ∧
      t.reg .r0 = s.reg .r0 ∧ t.cond = s.cond ∧ t.cin = rest ∧ t.output = s.output ∧
      t.cout = s.cout ∧ FaultedInput s t) ∧
    (s.cin.take = none → ∃ u, exec .getc s = .fault (.inputWait u) ∧ LinkedOnly s u ∧
      SameStatus s u ∧ SameConsole s u)

/-- R200, R207: OUT writes R0's low byte as one character, the byte 0x00 like any other; a failed event faults;
without an answer the step waits. -/
def Obligations.OutWritesLowByte : Prop :=
  ∀ (ir : Word) (s : State), getBits ir 12 4 = 0xF#4 → getBits ir 0 8 = 0x21#8 →
    decode ir = .out ∧
    (∀ rest, s.cout.take = some (.ok, rest) → ∃ t, exec .out s = .next t ∧ LinkedOnly s t ∧
      t.output = s.output ++ [.char ((s.reg .r0).extractLsb' 0 8)] ∧ t.cout = rest ∧ t.cin = s.cin ∧
      SameStatus s t) ∧
    (∀ rest, s.cout.take = some (.fail, rest) → ∃ t, exec .out s = .next t ∧ LinkedOnly s t ∧
      t.output = s.output ∧ t.cout = rest ∧ t.cin = s.cin ∧ FaultedOutput s t) ∧
    (s.cout.take = none → ∃ u, exec .out s = .fault (.outputWait u) ∧ LinkedOnly s u ∧
      SameStatus s u ∧ SameConsole s u)

/-- R200, R208: PUTS writes the low bytes of the words from R0 on, up to the first zero word, which it does not
write; the address wraps; R0 and memory are unchanged. -/
def Obligations.PutsWritesTheString : Prop :=
  ∀ (ir : Word) (s : State), getBits ir 12 4 = 0xF#4 → getBits ir 0 8 = 0x22#8 →
    decode ir = .puts ∧
    ∀ (k : Nat) (rest : Answers CoutAnswer),
      (∀ j, j < k → s.memRead (scanAddr s j) ≠ 0x0000#16) → s.memRead (scanAddr s k) = 0x0000#16 →
      oks k s.cout = some rest →
      ∃ t, exec .puts s = .next t ∧ LinkedOnly s t ∧ t.output = s.output ++ putsChars s k ∧
        t.cout = rest ∧ t.cin = s.cin ∧ SameStatus s t

/-- R203, R208: where the host fails PUTS's character number k (from 0), the k characters before it stand and
the run is FAULTED; where it never answers that character, the step waits with those k written. -/
def Obligations.PutsStopsAtAnUnacceptedCharacter : Prop :=
  ∀ (s : State) (k : Nat) (q : Answers CoutAnswer),
    (∀ j, j ≤ k → s.memRead (scanAddr s j) ≠ 0x0000#16) → oks k s.cout = some q →
    (∀ rest, q.take = some (.fail, rest) → ∃ t, exec .puts s = .next t ∧ LinkedOnly s t ∧
      t.output = s.output ++ putsChars s k ∧ t.cout = rest ∧ t.cin = s.cin ∧ FaultedOutput s t) ∧
    (q.take = none → ∃ u, exec .puts s = .fault (.outputWait u) ∧ LinkedOnly s u ∧
      u.output = s.output ++ putsChars s k ∧ u.cout = q ∧ u.cin = s.cin ∧ SameStatus s u)

/-- R200, R211: IN prompts, reads, echoes, stores, in that order (the spec's decision D19); a failure at any
point keeps what came before and stores nothing. -/
def Obligations.InPromptsReadsEchoesStores : Prop :=
  ∀ (ir : Word) (s : State), getBits ir 12 4 = 0xF#4 → getBits ir 0 8 = 0x23#8 →
    decode ir = .inp ∧
    (∀ c1, s.cout.take = some (.ok, c1) →
      (∀ b i1, s.cin.take = some (.byte b, i1) →
        (∀ c2, c1.take = some (.ok, c2) → ∃ t, exec .inp s = .next t ∧ TrapFrame s t ∧
          t.reg .r0 = 0x00#8 ++ b ∧ t.cond = (if b = 0x00#8 then 0b010#3 else 0b001#3) ∧
          t.output = s.output ++ [.notice .inPrompt, .char b] ∧ t.cin = i1 ∧ t.cout = c2 ∧
          SameStatus s t) ∧
        (∀ c2, c1.take = some (.fail, c2) → ∃ t, exec .inp s = .next t ∧ LinkedOnly s t ∧
          t.output = s.output ++ [.notice .inPrompt] ∧ t.cin = i1 ∧ t.cout = c2 ∧ FaultedOutput s t) ∧
        (c1.take = none → ∃ u, exec .inp s = .fault (.outputWait u) ∧ LinkedOnly s u ∧
          u.output = s.output ++ [.notice .inPrompt] ∧ u.cin = i1 ∧ u.cout = c1 ∧ SameStatus s u)) ∧
      (∀ i1, s.cin.take = some (.endOfInput, i1) → ∃ t, exec .inp s = .next t ∧ LinkedOnly s t ∧
        t.output = s.output ++ [.notice .inPrompt] ∧ t.cin = i1 ∧ t.cout = c1 ∧ FaultedInput s t) ∧
      (s.cin.take = none → ∃ u, exec .inp s = .fault (.inputWait u) ∧ LinkedOnly s u ∧
        u.output = s.output ++ [.notice .inPrompt] ∧ u.cin = s.cin ∧ u.cout = c1 ∧ SameStatus s u)) ∧
    (∀ c1, s.cout.take = some (.fail, c1) → ∃ t, exec .inp s = .next t ∧ LinkedOnly s t ∧
      t.output = s.output ∧ t.cin = s.cin ∧ t.cout = c1 ∧ FaultedOutput s t) ∧
    (s.cout.take = none → ∃ u, exec .inp s = .fault (.outputWait u) ∧ LinkedOnly s u ∧
      SameStatus s u ∧ SameConsole s u)

/-- R200, R212: PUTSP writes the low byte, then the high byte, of the words from R0 on, up to the first zero
byte, low or high; the address wraps; R0 and memory are unchanged. -/
def Obligations.PutspWritesThePackedString : Prop :=
  ∀ (ir : Word) (s : State), getBits ir 12 4 = 0xF#4 → getBits ir 0 8 = 0x24#8 →
    decode ir = .putsp ∧
    ∀ (k : Nat) (rest : Answers CoutAnswer),
      (∀ j, j < k → lowByte (s.memRead (scanAddr s j)) ≠ 0x00#8 ∧
        highByte (s.memRead (scanAddr s j)) ≠ 0x00#8) →
      (lowByte (s.memRead (scanAddr s k)) = 0x00#8 → oks (2 * k) s.cout = some rest →
        ∃ t, exec .putsp s = .next t ∧ LinkedOnly s t ∧ t.output = s.output ++ putspChars s k ∧
          t.cout = rest ∧ t.cin = s.cin ∧ SameStatus s t) ∧
      (lowByte (s.memRead (scanAddr s k)) ≠ 0x00#8 → highByte (s.memRead (scanAddr s k)) = 0x00#8 →
        oks (2 * k + 1) s.cout = some rest →
        ∃ t, exec .putsp s = .next t ∧ LinkedOnly s t ∧
          t.output = s.output ++ putspChars s k ++ [.char (lowByte (s.memRead (scanAddr s k)))] ∧
          t.cout = rest ∧ t.cin = s.cin ∧ SameStatus s t)

/-- R203, R212: where the host fails or never answers the low or the high byte of PUTSP's word number k, the
characters before it stand, and the run is FAULTED or the step waits. -/
def Obligations.PutspStopsAtAnUnacceptedCharacter : Prop :=
  ∀ (s : State) (k : Nat) (q : Answers CoutAnswer),
    (∀ j, j < k → lowByte (s.memRead (scanAddr s j)) ≠ 0x00#8 ∧
      highByte (s.memRead (scanAddr s j)) ≠ 0x00#8) →
    lowByte (s.memRead (scanAddr s k)) ≠ 0x00#8 →
    (oks (2 * k) s.cout = some q →
      (∀ rest, q.take = some (.fail, rest) → ∃ t, exec .putsp s = .next t ∧ LinkedOnly s t ∧
        t.output = s.output ++ putspChars s k ∧ t.cout = rest ∧ t.cin = s.cin ∧ FaultedOutput s t) ∧
      (q.take = none → ∃ u, exec .putsp s = .fault (.outputWait u) ∧ LinkedOnly s u ∧
        u.output = s.output ++ putspChars s k ∧ u.cout = q ∧ u.cin = s.cin ∧ SameStatus s u)) ∧
    (highByte (s.memRead (scanAddr s k)) ≠ 0x00#8 → oks (2 * k + 1) s.cout = some q →
      (∀ rest, q.take = some (.fail, rest) → ∃ t, exec .putsp s = .next t ∧ LinkedOnly s t ∧
        t.output = s.output ++ putspChars s k ++ [.char (lowByte (s.memRead (scanAddr s k)))] ∧
        t.cout = rest ∧ t.cin = s.cin ∧ FaultedOutput s t) ∧
      (q.take = none → ∃ u, exec .putsp s = .fault (.outputWait u) ∧ LinkedOnly s u ∧
        u.output = s.output ++ putspChars s k ++ [.char (lowByte (s.memRead (scanAddr s k)))] ∧
        u.cout = q ∧ u.cin = s.cin ∧ SameStatus s u))

/-- R209 (the spec's decision D14): a PUTS step never ends exactly where no word of memory is zero and the host
accepts every character; a PUTSP step exactly where no word has a zero byte and the host accepts every character.
Such a step writes its characters without bound: the answer holds those of the words read up to the model's bound
(log entry 6) and the address the scan goes on at, and for every n the first n words give their characters in
order with the scan still going on. -/
def Obligations.ScanNeverEndsExactlyWithoutTerminator : Prop :=
  ∀ s : State,
    ((∃ u a, exec .puts s = .fault (.neverEnds u a)) ↔
      (∀ a : Word, s.memRead a ≠ 0x0000#16) ∧ ∀ n : Nat, (oks n s.cout).isSome = true) ∧
    ((∃ u a, exec .putsp s = .fault (.neverEnds u a)) ↔
      (∀ a : Word, lowByte (s.memRead a) ≠ 0x00#8 ∧ highByte (s.memRead a) ≠ 0x00#8) ∧
      ∀ n : Nat, (oks n s.cout).isSome = true) ∧
    (∀ (u : State) (a : Word), exec .puts s = .fault (.neverEnds u a) →
      a = scanAddr s (scanFuel s) ∧ ScanReached (scanFuel s) (putsChars s (scanFuel s)) s u ∧
      ∀ n : Nat, ∃ v, putsFrom n (s.reg .r0) s.trapEntry = .fault (.neverEnds v (scanAddr s n)) ∧
        ScanReached n (putsChars s n) s v) ∧
    (∀ (u : State) (a : Word), exec .putsp s = .fault (.neverEnds u a) →
      a = scanAddr s (scanFuel s) ∧ ScanReached (2 * scanFuel s) (putspChars s (scanFuel s)) s u ∧
      ∀ n : Nat, ∃ v, putspFrom n (s.reg .r0) s.trapEntry = .fault (.neverEnds v (scanAddr s n)) ∧
        ScanReached (2 * n) (putspChars s n) s v)

/-- R200, R213: HALT emits its notice and ends the run HALTED with TRAP_HALT; R7 = PC = PC' stay visible. A
failed notice faults instead; without an answer the step waits. -/
def Obligations.HaltEndsTheRun : Prop :=
  ∀ (ir : Word) (s : State), getBits ir 12 4 = 0xF#4 → getBits ir 0 8 = 0x25#8 →
    decode ir = .halt ∧
    (∀ rest, s.cout.take = some (.ok, rest) → ∃ t, exec .halt s = .next t ∧ LinkedOnly s t ∧
      t.output = s.output ++ [.notice .haltNotice] ∧ t.cout = rest ∧ t.cin = s.cin ∧
      t.runState = .halted ∧ t.haltCause = .trapHalt ∧ t.faultCause = s.faultCause ∧ step t = .next t) ∧
    (∀ rest, s.cout.take = some (.fail, rest) → ∃ t, exec .halt s = .next t ∧ LinkedOnly s t ∧
      t.output = s.output ∧ t.cout = rest ∧ t.cin = s.cin ∧ FaultedOutput s t ∧ step t = .next t) ∧
    (s.cout.take = none → ∃ u, exec .halt s = .fault (.outputWait u) ∧ LinkedOnly s u ∧
      SameStatus s u ∧ SameConsole s u)

/-- R105, R200, R214, R242: a vector outside 0x20-0x25 emits an unimplemented-trap notice that names it, and
the run goes on; a failed notice faults; without an answer the step waits. -/
def Obligations.UnknownVectorReportsAndContinues : Prop :=
  ∀ (ir : Word) (s : State), getBits ir 12 4 = 0xF#4 →
    (getBits ir 0 8 < 0x20#8 ∨ 0x25#8 < getBits ir 0 8) →
    decode ir = .trap (getBits ir 0 8) ∧
    (∀ rest, s.cout.take = some (.ok, rest) → ∃ t, exec (.trap (getBits ir 0 8)) s = .next t ∧
      LinkedOnly s t ∧ t.output = s.output ++ [.notice (.unimplementedTrap (getBits ir 0 8))] ∧
      t.cout = rest ∧ t.cin = s.cin ∧ SameStatus s t) ∧
    (∀ rest, s.cout.take = some (.fail, rest) → ∃ t, exec (.trap (getBits ir 0 8)) s = .next t ∧
      LinkedOnly s t ∧ t.output = s.output ∧ t.cout = rest ∧ t.cin = s.cin ∧ FaultedOutput s t) ∧
    (s.cout.take = none → ∃ u, exec (.trap (getBits ir 0 8)) s = .fault (.outputWait u) ∧
      LinkedOnly s u ∧ SameStatus s u ∧ SameConsole s u)

/-- R201, R210: whatever the host answers, a TRAP leaves the PC at PC', puts PC' into R7, writes no memory and no
other register than R0, and R0 and the input only in GETC and IN. -/
def Obligations.TrapFootprint : Prop :=
  ∀ (i : Instr) (s t : State), i.wellFormed = true → isTrap i = true → exec i s = .next t →
    TrapFrame s t ∧ (i ≠ .getc → i ≠ .inp → t.reg .r0 = s.reg .r0 ∧ t.cin = s.cin) ∧
    (i = .getc → t.output = s.output ∧ t.cout = s.cout)

/-! ### The whole machine -/

/-- R27: after the fetch only a taken BR, JMP, JSR and JSRR write the PC, and none of them changes COND. -/
def Obligations.OnlyControlTransfersWritePc : Prop :=
  ∀ (i : Instr) (s t : State), exec i s = .next t →
    (writesPc i = false → t.pc = s.pc) ∧
    (∀ m o, i = .br m o → m &&& s.cond = 0b000#3 → t.pc = s.pc) ∧
    (writesPc i = true → t.cond = s.cond)

/-- R55: an instruction changes no word of memory but the one ST, STR or STI stores to. -/
def Obligations.OnlyStoresWriteMemory : Prop :=
  ∀ (i : Instr) (s t : State), exec i s = .next t →
    (storeAddress i s = none → SameMem s t) ∧
    (∀ ea, storeAddress i s = some ea → SameMemBut ea s t)

/-- R23: every instruction that writes DR, and GETC and IN for R0, sets COND from the value written, loads
included; the only way past it is the end of the run before the write. -/
def Obligations.EveryDestinationWriteSetsCond : Prop :=
  ∀ (i : Instr) (s t : State) (d : Reg), writeDRTarget i = some d → exec i s = .next t →
    t.cond = (if t.reg d = 0x0000#16 then 0b010#3 else if (t.reg d).getLsbD 15 then 0b100#3 else 0b001#3) ∨
    t.runState = .faulted ∧ t.cond = s.cond ∧ t.reg d = s.reg d

/-- R30: an instruction with no DR leaves COND, and only BR reads it: any other instruction does the same
whatever COND holds. -/
def Obligations.CondIsReadOnlyByBr : Prop :=
  (∀ (i : Instr) (s t : State), i.wellFormed = true → writeDRTarget i = none → exec i s = .next t →
    t.cond = s.cond) ∧
  (∀ (i : Instr) (s : State) (c : BitVec 3), (∀ m o, i ≠ .br m o) →
    eraseCond (exec i { s with cond := c }) = eraseCond (exec i s))

/-- R86, R241: from RUNNING a step goes to RUNNING, HALTED or FAULTED only; HALTED exactly by HALT, RTI and RES,
each with its own cause; FAULTED by the end of input in GETC and IN or by a failed output event. -/
def Obligations.RunStateTransitions : Prop :=
  ∀ (i : Instr) (s t : State), i.wellFormed = true → s.runState = .running → exec i s = .next t →
    t.runState ≠ .idle ∧
    ((i = .halt ∨ i = .rti ∨ i = .res) ↔ t.runState = .halted ∨
      t.runState = .faulted ∧ (i = .halt ∨ i = .rti ∨ i = .res)) ∧
    (t.runState = .halted → t.haltCause =
      (if i = .halt then .trapHalt else if i = .rti then .opRti else .opRes) ∧ t.faultCause = s.faultCause) ∧
    (t.runState = .faulted → t.haltCause = s.haltCause ∧
      (t.faultCause = .inputEnd ∧ (i = .getc ∨ i = .inp) ∨
        t.faultCause = .outputFail ∧ i ≠ .getc ∧ (isTrap i = true ∨ i = .rti ∨ i = .res))) ∧
    (t.runState = .running → t.haltCause = s.haltCause ∧ t.faultCause = s.faultCause)

/-- R29, R34, R35: every step keeps COND one-hot and the causes in agreement with RUN_STATE, and memory in its
canonical form, which is no rule of the spec but the model's own form of memory (DEDUCED, log entry 1). -/
def Obligations.StepKeepsInvariant : Prop :=
  ∀ s t : State, s.Inv → step s = .next t → t.Inv

/-- The invariant, the model's own canonical form of memory (DEDUCED, log entry 1) among it, holds at reset. -/
def Obligations.ResetMeetsInvariant : Prop := State.reset.Inv

/-- R40, R203: a step only adds events at the end of the output history. -/
def Obligations.OutputHistoryOnlyGrows : Prop :=
  ∀ s t : State, step s = .next t → ∃ es : List Event, t.output = s.output ++ es

/-- R12, R51, R53, R59, R62: a word written is the word read, whatever memory holds, and every other word reads
as before; the canonical form is kept; and canonical memories that read alike everywhere are the same data. -/
def Obligations.MemoryReadsTheLastWrite : Prop :=
  (∀ (s : State) (a b v : Word),
    (s.memWrite a v).memRead a = v ∧ (b ≠ a → (s.memWrite a v).memRead b = s.memRead b) ∧
    (Memory.wf s.mem = true → Memory.wf (s.memWrite a v).mem = true)) ∧
  (∀ s t : State, Memory.wf s.mem = true → Memory.wf t.mem = true → SameMem s t → t.mem = s.mem)

/-- R10, W1: sext_N sets every bit from N up where bit N-1 is set and else leaves the field, which is the
field's two's-complement value, for every N from 1 to 16. -/
def Obligations.SignExtensionIsTwosComplement : Prop :=
  ∀ (n : Nat) (v : BitVec n), 1 ≤ n → n ≤ 16 →
    sext v = (if v.getLsbD (n - 1) then v.setWidth 16 ||| (0xFFFF#16 <<< n) else v.setWidth 16) ∧
    (sext v).toInt = v.toInt

/-- R15, W2: cc. -/
def Obligations.ConditionCodeOfWord : Prop :=
  ∀ v : Word,
    (v = 0x0000#16 → cc v = 0b010#3) ∧ (v.toInt < 0 → cc v = 0b100#3) ∧ (0 < v.toInt → cc v = 0b001#3)

/-! ### Reset and boot -/

/-- R41: the reset values the spec gives, the status port's codes among them (R33-R35, the spec's decision D9).
The host's answers to come are the model's own fields and no part of this. -/
def Obligations.ResetValues : Prop :=
  (∀ r : Reg, State.reset.reg r = 0x0000#16) ∧ State.reset.pc = 0x0000#16 ∧ State.reset.cond = 0b010#3 ∧
  (∀ a : Word, State.reset.memRead a = 0x0000#16) ∧ State.reset.runState = .idle ∧
  State.reset.haltCause = .none ∧ State.reset.faultCause = .none ∧ State.reset.output = [] ∧
  State.reset.status = (0b11#2, 0b00#2, 0b00#2) ∧
  step State.reset = .next State.reset

/-- R273: an empty image and an image of an odd number of bytes give LoadError, whatever ORIGIN_PLAUSIBLE, and
memory is not written. That the core is then IDLE with every word zero is R270 and R279, the spec's decisions D21
and D13 (log entry 21). -/
def Obligations.MalformedImageIsLoadError : Prop :=
  ∀ (plausible : Word → Bool) (image : List Byte) (s : State),
    (image = [] ∨ image.length % 2 = 1) →
    (boot plausible image s).2 = .loadError ∧ (boot plausible image s).1.runState = .idle ∧
    ∀ a : Word, (boot plausible image s).1.memRead a = 0x0000#16

/-- R274, R275: an image of 2n bytes is n words, word k being byte 2k in bits 15-8 and byte 2k+1 in bits 7-0. -/
def Obligations.ImageWordsAreBigEndian : Prop :=
  ∀ image : List Byte, image.length % 2 = 0 →
    ∃ ws : List Word, imageWords image = some ws ∧ ws.length = image.length / 2 ∧
      ∀ (k : Nat) (hi lo : Byte), image[2 * k]? = some hi → image[2 * k + 1]? = some lo →
        ws[k]? = some (hi ++ lo)

/-- R276, R277: with a plausible first word o the words after it are at o, o+1, ..., every other word is zero,
and the run starts at o in the reset state: RUNNING and that state are R270 and R41, the spec's decisions D21 and
D9 (log entries 18 and 21). -/
def Obligations.HeaderImageLoadsAtOrigin : Prop :=
  ∀ (plausible : Word → Bool) (image : List Byte) (o : Word) (ws : List Word) (s : State),
    imageWords image = some (o :: ws) → plausible o = true → o.toNat + ws.length ≤ 65536 →
    ∃ t, boot plausible image s = (t, .started o) ∧ t.pc = o ∧ t.runState = .running ∧
      (∀ (k : Nat) (w : Word), ws[k]? = some w → t.memRead (o + BitVec.ofNat 16 k) = w) ∧
      (∀ a : Word, a.toNat < o.toNat ∨ o.toNat + ws.length ≤ a.toNat → t.memRead a = 0x0000#16) ∧
      (∀ r : Reg, t.reg r = 0x0000#16) ∧ t.cond = 0b010#3 ∧ t.haltCause = .none ∧ t.faultCause = .none ∧
      t.output = []

/-- R277, R278: with an implausible first word the whole image, that word included, is at 0x3000 on, every other
word is zero, and the run starts at 0x3000 in the reset state: RUNNING and that state are R270 and R41, the spec's
decisions D21 and D9 (log entries 18 and 21). -/
def Obligations.HeaderlessImageLoadsAt3000 : Prop :=
  ∀ (plausible : Word → Bool) (image : List Byte) (w0 : Word) (ws : List Word) (s : State),
    imageWords image = some (w0 :: ws) → plausible w0 = false → ws.length + 1 ≤ 0xD000 →
    ∃ t, boot plausible image s = (t, .started 0x3000#16) ∧ t.pc = 0x3000#16 ∧ t.runState = .running ∧
      (∀ (k : Nat) (w : Word), (w0 :: ws)[k]? = some w → t.memRead (0x3000#16 + BitVec.ofNat 16 k) = w) ∧
      (∀ a : Word, a.toNat < 0x3000 ∨ 0x3000 + (ws.length + 1) ≤ a.toNat → t.memRead a = 0x0000#16) ∧
      (∀ r : Reg, t.reg r = 0x0000#16) ∧ t.cond = 0b010#3 ∧ t.haltCause = .none ∧ t.faultCause = .none ∧
      t.output = []

/-- R279 (the spec's decisions D12, D13): an image that would run past 0xFFFF gives LoadError, writes nothing,
and the core stays IDLE and makes no step. -/
def Obligations.OverlongImageIsLoadError : Prop :=
  ∀ (plausible : Word → Bool) (image : List Byte) (w0 : Word) (ws : List Word) (s : State),
    imageWords image = some (w0 :: ws) →
    (plausible w0 = true ∧ 65536 < w0.toNat + ws.length ∨ plausible w0 = false ∧ 0xD000 < ws.length + 1) →
    ∃ t, boot plausible image s = (t, .loadError) ∧ t.runState = .idle ∧
      (∀ a : Word, t.memRead a = 0x0000#16) ∧ step t = .next t

/-- R270, R282: boot always leaves a state that meets the invariant, the model's own canonical form of memory
(DEDUCED, log entry 1) among it, whatever state it starts from, keeps only the host's answers of that state (the
model's choice, log entry 11), and is RUNNING exactly where it answers a start address. -/
def Obligations.BootMeetsInvariant : Prop :=
  ∀ (plausible : Word → Bool) (image : List Byte) (s : State),
    (boot plausible image s).1.Inv ∧
    (boot plausible image s).1.cin = s.cin ∧ (boot plausible image s).1.cout = s.cout ∧
    ((boot plausible image s).1.runState = .running ↔
      ∃ a, (boot plausible image s).2 = .started a ∧ (boot plausible image s).1.pc = a) ∧
    (∀ u : State, u.cin = s.cin → u.cout = s.cout → boot plausible image u = boot plausible image s)
end

