-- ==== Sys2Proof/Laws/State.lean ====
section
/-! SUPPORT. One lemma per field of State per update, each true by unfolding, and the reads of registers and
memory after each update. Nothing later needs to unfold a record update. -/

namespace Sys2Proof.Machine

section Updates

variable (s : State)

/-! ### setReg -/

@[simp] theorem State.setReg_regs (r : Reg) (v : Word) : (s.setReg r v).regs = s.regs.set r v := rfl
@[simp] theorem State.setReg_pc (r : Reg) (v : Word) : (s.setReg r v).pc = s.pc := rfl
@[simp] theorem State.setReg_cond (r : Reg) (v : Word) : (s.setReg r v).cond = s.cond := rfl
@[simp] theorem State.setReg_mem (r : Reg) (v : Word) : (s.setReg r v).mem = s.mem := rfl
@[simp] theorem State.setReg_runState (r : Reg) (v : Word) : (s.setReg r v).runState = s.runState := rfl
@[simp] theorem State.setReg_haltCause (r : Reg) (v : Word) : (s.setReg r v).haltCause = s.haltCause := rfl
@[simp] theorem State.setReg_faultCause (r : Reg) (v : Word) : (s.setReg r v).faultCause = s.faultCause := rfl
@[simp] theorem State.setReg_output (r : Reg) (v : Word) : (s.setReg r v).output = s.output := rfl
@[simp] theorem State.setReg_cin (r : Reg) (v : Word) : (s.setReg r v).cin = s.cin := rfl
@[simp] theorem State.setReg_cout (r : Reg) (v : Word) : (s.setReg r v).cout = s.cout := rfl

/-! ### writeDR -/

@[simp] theorem State.writeDR_regs (r : Reg) (v : Word) : (s.writeDR r v).regs = s.regs.set r v := rfl
@[simp] theorem State.writeDR_pc (r : Reg) (v : Word) : (s.writeDR r v).pc = s.pc := rfl
@[simp] theorem State.writeDR_cond (r : Reg) (v : Word) : (s.writeDR r v).cond = cc v := rfl
@[simp] theorem State.writeDR_mem (r : Reg) (v : Word) : (s.writeDR r v).mem = s.mem := rfl
@[simp] theorem State.writeDR_runState (r : Reg) (v : Word) : (s.writeDR r v).runState = s.runState := rfl
@[simp] theorem State.writeDR_haltCause (r : Reg) (v : Word) : (s.writeDR r v).haltCause = s.haltCause := rfl
@[simp] theorem State.writeDR_faultCause (r : Reg) (v : Word) : (s.writeDR r v).faultCause = s.faultCause := rfl
@[simp] theorem State.writeDR_output (r : Reg) (v : Word) : (s.writeDR r v).output = s.output := rfl
@[simp] theorem State.writeDR_cin (r : Reg) (v : Word) : (s.writeDR r v).cin = s.cin := rfl
@[simp] theorem State.writeDR_cout (r : Reg) (v : Word) : (s.writeDR r v).cout = s.cout := rfl

/-! ### writePc -/

@[simp] theorem State.writePc_regs (a : Word) : (s.writePc a).regs = s.regs := rfl
@[simp] theorem State.writePc_pc (a : Word) : (s.writePc a).pc = a := rfl
@[simp] theorem State.writePc_cond (a : Word) : (s.writePc a).cond = s.cond := rfl
@[simp] theorem State.writePc_mem (a : Word) : (s.writePc a).mem = s.mem := rfl
@[simp] theorem State.writePc_runState (a : Word) : (s.writePc a).runState = s.runState := rfl
@[simp] theorem State.writePc_haltCause (a : Word) : (s.writePc a).haltCause = s.haltCause := rfl
@[simp] theorem State.writePc_faultCause (a : Word) : (s.writePc a).faultCause = s.faultCause := rfl
@[simp] theorem State.writePc_output (a : Word) : (s.writePc a).output = s.output := rfl
@[simp] theorem State.writePc_cin (a : Word) : (s.writePc a).cin = s.cin := rfl
@[simp] theorem State.writePc_cout (a : Word) : (s.writePc a).cout = s.cout := rfl

/-! ### advancePc -/

@[simp] theorem State.advancePc_regs : (s.advancePc).regs = s.regs := rfl
@[simp] theorem State.advancePc_pc : (s.advancePc).pc = s.pc + 0x0001#16 := rfl
@[simp] theorem State.advancePc_cond : (s.advancePc).cond = s.cond := rfl
@[simp] theorem State.advancePc_mem : (s.advancePc).mem = s.mem := rfl
@[simp] theorem State.advancePc_runState : (s.advancePc).runState = s.runState := rfl
@[simp] theorem State.advancePc_haltCause : (s.advancePc).haltCause = s.haltCause := rfl
@[simp] theorem State.advancePc_faultCause : (s.advancePc).faultCause = s.faultCause := rfl
@[simp] theorem State.advancePc_output : (s.advancePc).output = s.output := rfl
@[simp] theorem State.advancePc_cin : (s.advancePc).cin = s.cin := rfl
@[simp] theorem State.advancePc_cout : (s.advancePc).cout = s.cout := rfl

/-! ### linkPc -/

@[simp] theorem State.linkPc_regs : (s.linkPc).regs = s.regs.set .r7 s.pc := rfl
@[simp] theorem State.linkPc_pc : (s.linkPc).pc = s.pc := rfl
@[simp] theorem State.linkPc_cond : (s.linkPc).cond = s.cond := rfl
@[simp] theorem State.linkPc_mem : (s.linkPc).mem = s.mem := rfl
@[simp] theorem State.linkPc_runState : (s.linkPc).runState = s.runState := rfl
@[simp] theorem State.linkPc_haltCause : (s.linkPc).haltCause = s.haltCause := rfl
@[simp] theorem State.linkPc_faultCause : (s.linkPc).faultCause = s.faultCause := rfl
@[simp] theorem State.linkPc_output : (s.linkPc).output = s.output := rfl
@[simp] theorem State.linkPc_cin : (s.linkPc).cin = s.cin := rfl
@[simp] theorem State.linkPc_cout : (s.linkPc).cout = s.cout := rfl

/-! ### trapEntry -/

@[simp] theorem State.trapEntry_regs : (s.trapEntry).regs = s.regs.set .r7 s.pc := rfl
@[simp] theorem State.trapEntry_pc : (s.trapEntry).pc = s.pc := rfl
@[simp] theorem State.trapEntry_cond : (s.trapEntry).cond = s.cond := rfl
@[simp] theorem State.trapEntry_mem : (s.trapEntry).mem = s.mem := rfl
@[simp] theorem State.trapEntry_runState : (s.trapEntry).runState = s.runState := rfl
@[simp] theorem State.trapEntry_haltCause : (s.trapEntry).haltCause = s.haltCause := rfl
@[simp] theorem State.trapEntry_faultCause : (s.trapEntry).faultCause = s.faultCause := rfl
@[simp] theorem State.trapEntry_output : (s.trapEntry).output = s.output := rfl
@[simp] theorem State.trapEntry_cin : (s.trapEntry).cin = s.cin := rfl
@[simp] theorem State.trapEntry_cout : (s.trapEntry).cout = s.cout := rfl

/-! ### memWrite -/

@[simp] theorem State.memWrite_regs (a v : Word) : (s.memWrite a v).regs = s.regs := rfl
@[simp] theorem State.memWrite_pc (a v : Word) : (s.memWrite a v).pc = s.pc := rfl
@[simp] theorem State.memWrite_cond (a v : Word) : (s.memWrite a v).cond = s.cond := rfl
@[simp] theorem State.memWrite_mem (a v : Word) : (s.memWrite a v).mem = Memory.write s.mem a.toNat v := rfl
@[simp] theorem State.memWrite_runState (a v : Word) : (s.memWrite a v).runState = s.runState := rfl
@[simp] theorem State.memWrite_haltCause (a v : Word) : (s.memWrite a v).haltCause = s.haltCause := rfl
@[simp] theorem State.memWrite_faultCause (a v : Word) : (s.memWrite a v).faultCause = s.faultCause := rfl
@[simp] theorem State.memWrite_output (a v : Word) : (s.memWrite a v).output = s.output := rfl
@[simp] theorem State.memWrite_cin (a v : Word) : (s.memWrite a v).cin = s.cin := rfl
@[simp] theorem State.memWrite_cout (a v : Word) : (s.memWrite a v).cout = s.cout := rfl

/-! ### halt -/

@[simp] theorem State.halt_regs (c : HaltCause) : (s.halt c).regs = s.regs := rfl
@[simp] theorem State.halt_pc (c : HaltCause) : (s.halt c).pc = s.pc := rfl
@[simp] theorem State.halt_cond (c : HaltCause) : (s.halt c).cond = s.cond := rfl
@[simp] theorem State.halt_mem (c : HaltCause) : (s.halt c).mem = s.mem := rfl
@[simp] theorem State.halt_runState (c : HaltCause) : (s.halt c).runState = .halted := rfl
@[simp] theorem State.halt_haltCause (c : HaltCause) : (s.halt c).haltCause = c := rfl
@[simp] theorem State.halt_faultCause (c : HaltCause) : (s.halt c).faultCause = s.faultCause := rfl
@[simp] theorem State.halt_output (c : HaltCause) : (s.halt c).output = s.output := rfl
@[simp] theorem State.halt_cin (c : HaltCause) : (s.halt c).cin = s.cin := rfl
@[simp] theorem State.halt_cout (c : HaltCause) : (s.halt c).cout = s.cout := rfl

/-! ### raiseFault -/

@[simp] theorem State.raiseFault_regs (c : FaultCause) : (s.raiseFault c).regs = s.regs := rfl
@[simp] theorem State.raiseFault_pc (c : FaultCause) : (s.raiseFault c).pc = s.pc := rfl
@[simp] theorem State.raiseFault_cond (c : FaultCause) : (s.raiseFault c).cond = s.cond := rfl
@[simp] theorem State.raiseFault_mem (c : FaultCause) : (s.raiseFault c).mem = s.mem := rfl
@[simp] theorem State.raiseFault_runState (c : FaultCause) : (s.raiseFault c).runState = .faulted := rfl
@[simp] theorem State.raiseFault_haltCause (c : FaultCause) : (s.raiseFault c).haltCause = s.haltCause := rfl
@[simp] theorem State.raiseFault_faultCause (c : FaultCause) : (s.raiseFault c).faultCause = c := rfl
@[simp] theorem State.raiseFault_output (c : FaultCause) : (s.raiseFault c).output = s.output := rfl
@[simp] theorem State.raiseFault_cin (c : FaultCause) : (s.raiseFault c).cin = s.cin := rfl
@[simp] theorem State.raiseFault_cout (c : FaultCause) : (s.raiseFault c).cout = s.cout := rfl

end Updates

end Sys2Proof.Machine
end

