-- ==== Sys2Proof/Laws/Registers.lean ====
section
/-! SUPPORT. The register file: a read after a write (spec/00_scope.md R14, spec/10_state.md R20, R25). -/

namespace Sys2Proof.Machine

@[simp] theorem Regs.get_set_same (g : Regs) (r : Reg) (v : Word) : (g.set r v).get r = v := by
  cases r <;> rfl

theorem Regs.get_set_of_ne (g : Regs) {r d : Reg} (v : Word) (h : r ≠ d) :
    (g.set d v).get r = g.get r := by
  cases r <;> cases d <;> first | rfl | exact absurd rfl h

theorem Regs.get_set (g : Regs) (r d : Reg) (v : Word) :
    (g.set d v).get r = if r = d then v else g.get r := by
  by_cases h : r = d
  · subst h; simp
  · simp [h, g.get_set_of_ne v h]

section Reads

variable (s : State) (r d : Reg) (v a : Word)

theorem State.reg_setReg : (s.setReg d v).reg r = if r = d then v else s.reg r := s.regs.get_set r d v

theorem State.reg_writeDR : (s.writeDR d v).reg r = if r = d then v else s.reg r := s.regs.get_set r d v

theorem State.reg_linkPc : s.linkPc.reg r = if r = .r7 then s.pc else s.reg r := s.regs.get_set r .r7 s.pc

theorem State.reg_trapEntry : s.trapEntry.reg r = if r = .r7 then s.pc else s.reg r :=
  s.regs.get_set r .r7 s.pc

@[simp] theorem State.reg_writePc : (s.writePc a).reg r = s.reg r := rfl

@[simp] theorem State.reg_advancePc : s.advancePc.reg r = s.reg r := rfl

@[simp] theorem State.reg_memWrite : (s.memWrite a v).reg r = s.reg r := rfl

@[simp] theorem State.reg_halt (c : HaltCause) : (s.halt c).reg r = s.reg r := rfl

@[simp] theorem State.reg_raiseFault (c : FaultCause) : (s.raiseFault c).reg r = s.reg r := rfl

/-- The link write does not touch R0, so a service reads the R0 the TRAP found. -/
@[simp] theorem State.r0_trapEntry : s.trapEntry.reg .r0 = s.reg .r0 := rfl

@[simp] theorem State.memRead_writeDR : (s.writeDR d v).memRead a = s.memRead a := rfl

@[simp] theorem State.memRead_writePc : (s.writePc v).memRead a = s.memRead a := rfl

@[simp] theorem State.memRead_advancePc : s.advancePc.memRead a = s.memRead a := rfl

@[simp] theorem State.memRead_linkPc : s.linkPc.memRead a = s.memRead a := rfl

@[simp] theorem State.memRead_trapEntry : s.trapEntry.memRead a = s.memRead a := rfl

@[simp] theorem State.memRead_halt (c : HaltCause) : (s.halt c).memRead a = s.memRead a := rfl

@[simp] theorem State.memRead_raiseFault (c : FaultCause) : (s.raiseFault c).memRead a = s.memRead a := rfl

end Reads

end Sys2Proof.Machine
end

