-- ==== Sys2Proof/Laws/Boot.lean ====
section
/-! SUPPORT. What the loader's operations do: what the loaded memory reads, that it is canonical, and the words
of an image (spec/70_reset_and_hazards.md R273-R279). -/

namespace Sys2Proof.Machine

/-- What a read gives after the words `ws` were written from address `a` on (R276, R278). -/
theorem read_loadWords (ws : List Word) (a b : Nat) (m : Memory) :
    (loadWords a ws m).read b =
      if a ≤ b ∧ b < a + ws.length then (ws[b - a]?).getD 0x0000#16 else m.read b := by
  induction ws generalizing a m with
  | nil => simp [loadWords]
  | cons w rest ih =>
    simp only [loadWords]
    rw [ih, Memory.read_write]
    by_cases h1 : a + 1 ≤ b ∧ b < a + 1 + rest.length
    · rw [if_pos h1, if_pos (by simp only [List.length_cons]; omega),
        show b - a = (b - (a + 1)) + 1 by omega, List.getElem?_cons_succ]
    · rw [if_neg h1]
      by_cases h2 : b = a
      · subst h2; simp
      · rw [if_neg h2, if_neg (by simp only [List.length_cons]; omega)]

/-- Loading words that fit below MEMSIZE keeps the canonical form. -/
theorem wf_loadWords (ws : List Word) (a : Nat) (m : Memory) (h : a + ws.length ≤ Config.memSize)
    (hm : Memory.wf m = true) : Memory.wf (loadWords a ws m) = true := by
  induction ws generalizing a m with
  | nil => exact hm
  | cons w rest ih =>
    simp only [List.length_cons] at h
    exact ih _ _ (by omega) (Memory.wf_write _ hm (by omega))

/-- Everything `placeWords` answers (R279). -/
theorem placeWords_eq_some {start : Word} {ws : List Word} {x : Word × Memory} :
    placeWords start ws = some x ↔
      start.toNat + ws.length ≤ Config.memSize ∧ x = (start, loadWords start.toNat ws []) := by
  unfold placeWords
  split
  · simp [*, eq_comm]
  · simp [*]

end Sys2Proof.Machine
end

