-- ==== Sys2Proof/Laws/Console.lean ====
section
/-! SUPPORT. The console transactions: what each answers, by the host's answer (spec/45_trap.md R203, R204). -/

namespace Sys2Proof.Machine

theorem emit_ok {s : State} {rest : Answers CoutAnswer} (e : Event) (k : State → Result)
    (h : s.cout.take = some (.ok, rest)) :
    emit e s k = k { s with output := s.output ++ [e], cout := rest } := by
  simp [emit, h]

theorem emit_fail {s : State} {rest : Answers CoutAnswer} (e : Event) (k : State → Result)
    (h : s.cout.take = some (.fail, rest)) :
    emit e s k = .next (State.raiseFault { s with cout := rest } .outputFail) := by
  simp [emit, h]

theorem emit_wait {s : State} (e : Event) (k : State → Result) (h : s.cout.take = none) :
    emit e s k = .fault (.outputWait s) := by
  simp [emit, h]

theorem consoleRead_byte {s : State} {b : Byte} {rest : Answers CinAnswer} (k : Byte → State → Result)
    (h : s.cin.take = some (.byte b, rest)) : consoleRead s k = k b { s with cin := rest } := by
  simp [consoleRead, h]

theorem consoleRead_end {s : State} {rest : Answers CinAnswer} (k : Byte → State → Result)
    (h : s.cin.take = some (.endOfInput, rest)) :
    consoleRead s k = .next (State.raiseFault { s with cin := rest } .inputEnd) := by
  simp [consoleRead, h]

theorem consoleRead_wait {s : State} (k : Byte → State → Result) (h : s.cin.take = none) :
    consoleRead s k = .fault (.inputWait s) := by
  simp [consoleRead, h]

/-- Everything `emit` can do on its way to a next state. -/
theorem emit_next {e : Event} {s t : State} {k : State → Result} (h : emit e s k = .next t) :
    (∃ rest, s.cout.take = some (.ok, rest) ∧ k { s with output := s.output ++ [e], cout := rest } = .next t) ∨
    (∃ rest, s.cout.take = some (.fail, rest) ∧
      t = State.raiseFault { s with cout := rest } .outputFail) := by
  unfold emit at h
  split at h
  · exact .inl ⟨_, by assumption, h⟩
  · cases h; exact .inr ⟨_, by assumption, rfl⟩
  · cases h

/-- Everything `consoleRead` can do on its way to a next state. -/
theorem consoleRead_next {s t : State} {k : Byte → State → Result} (h : consoleRead s k = .next t) :
    (∃ b rest, s.cin.take = some (.byte b, rest) ∧ k b { s with cin := rest } = .next t) ∨
    (∃ rest, s.cin.take = some (.endOfInput, rest) ∧
      t = State.raiseFault { s with cin := rest } .inputEnd) := by
  unfold consoleRead at h
  split at h
  · exact .inl ⟨_, _, by assumption, h⟩
  · cases h; exact .inr ⟨_, by assumption, rfl⟩
  · cases h

/-- Everything `noticeThenHalt` can do on its way to a next state. -/
theorem noticeThenHalt_next {n : Notice} {c : HaltCause} {s t : State} (h : noticeThenHalt n c s = .next t) :
    (∃ rest, s.cout.take = some (.ok, rest) ∧
      t = State.halt { s with output := s.output ++ [.notice n], cout := rest } c) ∨
    (∃ rest, s.cout.take = some (.fail, rest) ∧
      t = State.raiseFault { s with cout := rest } .outputFail) := by
  unfold noticeThenHalt emitNotice at h
  obtain ⟨rest, hr, hk⟩ | hf := emit_next h
  · cases hk; exact .inl ⟨rest, hr, rfl⟩
  · exact .inr hf

/-- What a scan keeps: a relation that holds of a state and itself, and of an output event's and a failure's
update, holds of the state a scan ends in. -/
theorem putsFrom_rel {R : State → Prop} (hok : ∀ u e q, R u → R { u with output := u.output ++ [e], cout := q })
    (hfail : ∀ u q, R u → R (State.raiseFault { u with cout := q } .outputFail)) :
    ∀ (n : Nat) (a : Word) (s t : State), R s → putsFrom n a s = .next t → R t := by
  intro n
  induction n with
  | zero => intro a s t _ h; cases h
  | succ n ih =>
    intro a s t hs h
    unfold putsFrom at h
    split at h
    · cases h; exact hs
    · unfold consoleWrite at h
      obtain ⟨rest, -, hk⟩ | ⟨rest, -, rfl⟩ := emit_next h
      · exact ih _ _ _ (hok _ _ _ hs) hk
      · exact hfail _ _ hs

/-- The same for PUTSP's scan. -/
theorem putspFrom_rel {R : State → Prop} (hok : ∀ u e q, R u → R { u with output := u.output ++ [e], cout := q })
    (hfail : ∀ u q, R u → R (State.raiseFault { u with cout := q } .outputFail)) :
    ∀ (n : Nat) (a : Word) (s t : State), R s → putspFrom n a s = .next t → R t := by
  intro n
  induction n with
  | zero => intro a s t _ h; cases h
  | succ n ih =>
    intro a s t hs h
    unfold putspFrom at h
    split at h
    · cases h; exact hs
    · unfold consoleWrite at h
      obtain ⟨rest, -, hk⟩ | ⟨rest, -, rfl⟩ := emit_next h
      · split at hk
        · cases hk; exact hok _ _ _ hs
        · obtain ⟨rest', -, hk'⟩ | ⟨rest', -, rfl⟩ := emit_next hk
          · exact ih _ _ _ (hok _ _ _ (hok _ _ _ hs)) hk'
          · exact hfail _ _ (hok _ _ _ hs)
      · exact hfail _ _ hs

end Sys2Proof.Machine
end

