-- ==== Sys2Proof/Laws/Decode.lean ====
section
/-! SUPPORT. Register index fields and the opcode field (spec/30_encoding.md R82, R87). -/

namespace Sys2Proof

@[simp] theorem Reg.ofBits_toBits (r : Reg) : Reg.ofBits r.toBits = r := by cases r <;> rfl

@[simp] theorem Reg.toBits_ofBits (b : BitVec 3) : (Reg.ofBits b).toBits = b := by
  revert b; decide

/-- A bit of a field is a bit of the word (R13). -/
theorem getBits_getLsbD (v : Word) (start count i : Nat) (h : i < count) :
    (getBits v start count).getLsbD i = v.getLsbD (start + i) := by
  simp [getBits, h]

/-- The opcode field's four bits, from bit 15 down. -/
theorem opcode_bits {ir : Word} {c : BitVec 4} (h : getBits ir 12 4 = c) :
    ir.getLsbD 15 = c.getLsbD 3 ∧ ir.getLsbD 14 = c.getLsbD 2 ∧ ir.getLsbD 13 = c.getLsbD 1 ∧
      ir.getLsbD 12 = c.getLsbD 0 := by
  subst h
  refine ⟨?_, ?_, ?_, ?_⟩ <;> rw [getBits_getLsbD _ _ _ _ (by decide)]

/-- The arm of `decode` that four bits of the word select, as one equation in the opcode field. -/
theorem decode_eq_of_opcode {ir : Word} {c : BitVec 4} (h : getBits ir 12 4 = c) :
    decode ir =
      match c.getLsbD 3, c.getLsbD 2, c.getLsbD 1, c.getLsbD 0 with
      | false, false, false, false => .br (getBits ir 9 3) (getBits ir 0 9)
      | false, false, false, true => decodeAdd ir
      | false, false, true, false => .ld (regAt ir 9) (getBits ir 0 9)
      | false, false, true, true => .st (regAt ir 9) (getBits ir 0 9)
      | false, true, false, false => decodeJsr ir
      | false, true, false, true => decodeAnd ir
      | false, true, true, false => .ldr (regAt ir 9) (regAt ir 6) (getBits ir 0 6)
      | false, true, true, true => .str (regAt ir 9) (regAt ir 6) (getBits ir 0 6)
      | true, false, false, false => .rti
      | true, false, false, true => .not (regAt ir 9) (regAt ir 6)
      | true, false, true, false => .ldi (regAt ir 9) (getBits ir 0 9)
      | true, false, true, true => .sti (regAt ir 9) (getBits ir 0 9)
      | true, true, false, false => .jmp (regAt ir 6)
      | true, true, false, true => .res
      | true, true, true, false => .lea (regAt ir 9) (getBits ir 0 9)
      | true, true, true, true => decodeTrap ir := by
  obtain ⟨h3, h2, h1, h0⟩ := opcode_bits h
  unfold decode
  rw [h3, h2, h1, h0]
  all_goals (cases c.getLsbD 3 <;> cases c.getLsbD 2 <;> cases c.getLsbD 1 <;> cases c.getLsbD 0 <;> rfl)

end Sys2Proof
end

