-- ==== Sys2Proof/Laws/Exec.lean ====
section
/-! SUPPORT. What each instruction is in terms of the shared operations, one equation per constructor
(spec/41_operate.md to spec/45_trap.md), and the host's run of the machine one step at a time. -/

namespace Sys2Proof.Machine

section Arms

variable (s : State) (d a b : Reg) (m : BitVec 3) (imm : BitVec 5) (o6 : BitVec 6) (o9 : BitVec 9)
  (o11 : BitVec 11)

theorem exec_addReg : exec (.addReg d a b) s = .next (s.writeDR d (s.reg a + s.reg b)) := rfl

theorem exec_addImm : exec (.addImm d a imm) s = .next (s.writeDR d (s.reg a + sext imm)) := rfl

theorem exec_andReg : exec (.andReg d a b) s = .next (s.writeDR d (s.reg a &&& s.reg b)) := rfl

theorem exec_andImm : exec (.andImm d a imm) s = .next (s.writeDR d (s.reg a &&& sext imm)) := rfl

theorem exec_not : exec (.not d a) s = .next (s.writeDR d (~~~(s.reg a))) := rfl

theorem exec_br : exec (.br m o9) s =
    .next (if branchTaken m s.cond then s.writePc (eaPcRel s o9) else s) := rfl

theorem exec_jmp : exec (.jmp b) s = .next (s.writePc (s.reg b)) := rfl

theorem exec_jsr : exec (.jsr o11) s = .next (s.linkPc.writePc (eaPcRel11 s o11)) := rfl

theorem exec_jsrr : exec (.jsrr b) s = .next (s.linkPc.writePc (s.reg b)) := rfl

theorem exec_ld : exec (.ld d o9) s = .next (s.writeDR d (s.memRead (eaPcRel s o9))) := rfl

theorem exec_st : exec (.st d o9) s = .next (s.memWrite (eaPcRel s o9) (s.reg d)) := rfl

theorem exec_ldr : exec (.ldr d b o6) s = .next (s.writeDR d (s.memRead (eaBase s b o6))) := rfl

theorem exec_str : exec (.str d b o6) s = .next (s.memWrite (eaBase s b o6) (s.reg d)) := rfl

theorem exec_ldi : exec (.ldi d o9) s = .next (s.writeDR d (s.memRead (eaIndirect s o9))) := rfl

theorem exec_sti : exec (.sti d o9) s = .next (s.memWrite (eaIndirect s o9) (s.reg d)) := rfl

theorem exec_lea : exec (.lea d o9) s = .next (s.writeDR d (eaPcRel s o9)) := rfl

theorem exec_rti : exec .rti s =
    emit (.notice (.unimplementedOpcode .rti)) s (fun t => .next (t.halt .opRti)) := rfl

theorem exec_res : exec .res s =
    emit (.notice (.unimplementedOpcode .res)) s (fun t => .next (t.halt .opRes)) := rfl

theorem exec_getc : exec .getc s =
    consoleRead s.trapEntry (fun c t => .next (t.writeDR .r0 (zext8 c))) := rfl

theorem exec_out : exec .out s = emit (.char (lowByte (s.reg .r0))) s.trapEntry .next := rfl

theorem exec_puts : exec .puts s = putsFrom (scanFuel s) (s.reg .r0) s.trapEntry := rfl

theorem exec_inp : exec .inp s =
    emit (.notice .inPrompt) s.trapEntry (fun t => consoleRead t (fun c u =>
      emit (.char c) u (fun v => .next (v.writeDR .r0 (zext8 c))))) := rfl

theorem exec_putsp : exec .putsp s = putspFrom (scanFuel s) (s.reg .r0) s.trapEntry := rfl

theorem exec_halt : exec .halt s =
    emit (.notice .haltNotice) s.trapEntry (fun t => .next (t.halt .trapHalt)) := rfl

/-- A vector that is no service's: UNKNOWN (R214). -/
theorem exec_trap {vec : Byte} (h : (Instr.trap vec).wellFormed = true) :
    exec (.trap vec) s = emit (.notice (.unimplementedTrap vec)) s.trapEntry .next := by
  have hv : ¬ (0x20#8 ≤ vec ∧ vec ≤ 0x25#8) := by
    simpa only [Instr.wellFormed, isServiceVector, Bool.not_eq_true', decide_eq_false_iff_not] using h
  show dispatchTrap vec s.trapEntry = _
  unfold dispatchTrap
  repeat' split
  all_goals first | rfl | (subst_vars; exact absurd (by decide) hv)

end Arms

/-- The host's run unfolded once, for any machine. -/
theorem core_run_succ (M : Host.Core) (n : Nat) (s : M.State) :
    M.run (n + 1) s =
      match M.step s with
      | .next t => M.run n t
      | .fault r => .fault r
      | .refused r => .refused r := rfl

theorem core_run_of_next {s t : State} (n : Nat) (h : step s = .next t) :
    Host.Core.run Sys2Proof.core (n + 1) s = Host.Core.run Sys2Proof.core n t := by
  have h' : Sys2Proof.core.step s = .next t := h
  exact (core_run_succ Sys2Proof.core n s).trans (by rw [h'])

theorem core_run_of_fault {s : State} {r : Fault} (n : Nat) (h : step s = .fault r) :
    Host.Core.run Sys2Proof.core (n + 1) s = .fault r := by
  have h' : Sys2Proof.core.step s = .fault r := h
  exact (core_run_succ Sys2Proof.core n s).trans (by rw [h'])

theorem core_run_of_refused {s : State} {r : Refusal} (n : Nat) (h : step s = .refused r) :
    Host.Core.run Sys2Proof.core (n + 1) s = .refused r := by
  have h' : Sys2Proof.core.step s = .refused r := h
  exact (core_run_succ Sys2Proof.core n s).trans (by rw [h'])

end Sys2Proof.Machine
end

