-- ==== Sys2Proof/Laws/PerInstr.lean ====
section
/-! SUPPORT. Statements about every instruction as syntax, one lemma per constructor.
EncodesOwnOpcode: the word the encoder gives an instruction has the instruction's opcode in bits 15-12
(spec/30_encoding.md R82, R84). -/

/-- The encoded word's opcode field is the instruction's opcode. -/
def Sys2Proof.Laws.EncodesOwnOpcode.Statement (i : Sys2Proof.Instr) : Prop :=
  Sys2Proof.getBits (Sys2Proof.encode i) 12 4 = i.opcode

theorem Sys2Proof.Laws.EncodesOwnOpcode.br (nzp : BitVec 3) (off : BitVec 9) :
    Sys2Proof.Laws.EncodesOwnOpcode.Statement (.br nzp off) := by
  refine BitVec.eq_of_getLsbD_eq fun k hk => ?_
  rw [Sys2Proof.getBits_getLsbD _ _ _ _ hk]
  interval_cases k <;> simp only [Sys2Proof.encode, Sys2Proof.Instr.opcode, BitVec.getLsbD_append] <;> rfl

theorem Sys2Proof.Laws.EncodesOwnOpcode.addReg (dr sr1 sr2 : Sys2Proof.Reg) :
    Sys2Proof.Laws.EncodesOwnOpcode.Statement (.addReg dr sr1 sr2) := by
  refine BitVec.eq_of_getLsbD_eq fun k hk => ?_
  rw [Sys2Proof.getBits_getLsbD _ _ _ _ hk]
  interval_cases k <;> simp only [Sys2Proof.encode, Sys2Proof.Instr.opcode, BitVec.getLsbD_append] <;> rfl

theorem Sys2Proof.Laws.EncodesOwnOpcode.addImm (dr sr1 : Sys2Proof.Reg) (imm : BitVec 5) :
    Sys2Proof.Laws.EncodesOwnOpcode.Statement (.addImm dr sr1 imm) := by
  refine BitVec.eq_of_getLsbD_eq fun k hk => ?_
  rw [Sys2Proof.getBits_getLsbD _ _ _ _ hk]
  interval_cases k <;> simp only [Sys2Proof.encode, Sys2Proof.Instr.opcode, BitVec.getLsbD_append] <;> rfl

theorem Sys2Proof.Laws.EncodesOwnOpcode.ld (dr : Sys2Proof.Reg) (off : BitVec 9) :
    Sys2Proof.Laws.EncodesOwnOpcode.Statement (.ld dr off) := by
  refine BitVec.eq_of_getLsbD_eq fun k hk => ?_
  rw [Sys2Proof.getBits_getLsbD _ _ _ _ hk]
  interval_cases k <;> simp only [Sys2Proof.encode, Sys2Proof.Instr.opcode, BitVec.getLsbD_append] <;> rfl

theorem Sys2Proof.Laws.EncodesOwnOpcode.st (sr : Sys2Proof.Reg) (off : BitVec 9) :
    Sys2Proof.Laws.EncodesOwnOpcode.Statement (.st sr off) := by
  refine BitVec.eq_of_getLsbD_eq fun k hk => ?_
  rw [Sys2Proof.getBits_getLsbD _ _ _ _ hk]
  interval_cases k <;> simp only [Sys2Proof.encode, Sys2Proof.Instr.opcode, BitVec.getLsbD_append] <;> rfl

theorem Sys2Proof.Laws.EncodesOwnOpcode.jsrr (base : Sys2Proof.Reg) :
    Sys2Proof.Laws.EncodesOwnOpcode.Statement (.jsrr base) := by
  refine BitVec.eq_of_getLsbD_eq fun k hk => ?_
  rw [Sys2Proof.getBits_getLsbD _ _ _ _ hk]
  interval_cases k <;> simp only [Sys2Proof.encode, Sys2Proof.Instr.opcode, BitVec.getLsbD_append] <;> rfl

theorem Sys2Proof.Laws.EncodesOwnOpcode.jsr (off : BitVec 11) :
    Sys2Proof.Laws.EncodesOwnOpcode.Statement (.jsr off) := by
  refine BitVec.eq_of_getLsbD_eq fun k hk => ?_
  rw [Sys2Proof.getBits_getLsbD _ _ _ _ hk]
  interval_cases k <;> simp only [Sys2Proof.encode, Sys2Proof.Instr.opcode, BitVec.getLsbD_append] <;> rfl

theorem Sys2Proof.Laws.EncodesOwnOpcode.andReg (dr sr1 sr2 : Sys2Proof.Reg) :
    Sys2Proof.Laws.EncodesOwnOpcode.Statement (.andReg dr sr1 sr2) := by
  refine BitVec.eq_of_getLsbD_eq fun k hk => ?_
  rw [Sys2Proof.getBits_getLsbD _ _ _ _ hk]
  interval_cases k <;> simp only [Sys2Proof.encode, Sys2Proof.Instr.opcode, BitVec.getLsbD_append] <;> rfl

theorem Sys2Proof.Laws.EncodesOwnOpcode.andImm (dr sr1 : Sys2Proof.Reg) (imm : BitVec 5) :
    Sys2Proof.Laws.EncodesOwnOpcode.Statement (.andImm dr sr1 imm) := by
  refine BitVec.eq_of_getLsbD_eq fun k hk => ?_
  rw [Sys2Proof.getBits_getLsbD _ _ _ _ hk]
  interval_cases k <;> simp only [Sys2Proof.encode, Sys2Proof.Instr.opcode, BitVec.getLsbD_append] <;> rfl

theorem Sys2Proof.Laws.EncodesOwnOpcode.ldr (dr base : Sys2Proof.Reg) (off : BitVec 6) :
    Sys2Proof.Laws.EncodesOwnOpcode.Statement (.ldr dr base off) := by
  refine BitVec.eq_of_getLsbD_eq fun k hk => ?_
  rw [Sys2Proof.getBits_getLsbD _ _ _ _ hk]
  interval_cases k <;> simp only [Sys2Proof.encode, Sys2Proof.Instr.opcode, BitVec.getLsbD_append] <;> rfl

theorem Sys2Proof.Laws.EncodesOwnOpcode.str (sr base : Sys2Proof.Reg) (off : BitVec 6) :
    Sys2Proof.Laws.EncodesOwnOpcode.Statement (.str sr base off) := by
  refine BitVec.eq_of_getLsbD_eq fun k hk => ?_
  rw [Sys2Proof.getBits_getLsbD _ _ _ _ hk]
  interval_cases k <;> simp only [Sys2Proof.encode, Sys2Proof.Instr.opcode, BitVec.getLsbD_append] <;> rfl

theorem Sys2Proof.Laws.EncodesOwnOpcode.rti :
    Sys2Proof.Laws.EncodesOwnOpcode.Statement .rti := by
  unfold Sys2Proof.Laws.EncodesOwnOpcode.Statement; decide

theorem Sys2Proof.Laws.EncodesOwnOpcode.not (dr sr : Sys2Proof.Reg) :
    Sys2Proof.Laws.EncodesOwnOpcode.Statement (.not dr sr) := by
  refine BitVec.eq_of_getLsbD_eq fun k hk => ?_
  rw [Sys2Proof.getBits_getLsbD _ _ _ _ hk]
  interval_cases k <;> simp only [Sys2Proof.encode, Sys2Proof.Instr.opcode, BitVec.getLsbD_append] <;> rfl

theorem Sys2Proof.Laws.EncodesOwnOpcode.ldi (dr : Sys2Proof.Reg) (off : BitVec 9) :
    Sys2Proof.Laws.EncodesOwnOpcode.Statement (.ldi dr off) := by
  refine BitVec.eq_of_getLsbD_eq fun k hk => ?_
  rw [Sys2Proof.getBits_getLsbD _ _ _ _ hk]
  interval_cases k <;> simp only [Sys2Proof.encode, Sys2Proof.Instr.opcode, BitVec.getLsbD_append] <;> rfl

theorem Sys2Proof.Laws.EncodesOwnOpcode.sti (sr : Sys2Proof.Reg) (off : BitVec 9) :
    Sys2Proof.Laws.EncodesOwnOpcode.Statement (.sti sr off) := by
  refine BitVec.eq_of_getLsbD_eq fun k hk => ?_
  rw [Sys2Proof.getBits_getLsbD _ _ _ _ hk]
  interval_cases k <;> simp only [Sys2Proof.encode, Sys2Proof.Instr.opcode, BitVec.getLsbD_append] <;> rfl

theorem Sys2Proof.Laws.EncodesOwnOpcode.jmp (base : Sys2Proof.Reg) :
    Sys2Proof.Laws.EncodesOwnOpcode.Statement (.jmp base) := by
  refine BitVec.eq_of_getLsbD_eq fun k hk => ?_
  rw [Sys2Proof.getBits_getLsbD _ _ _ _ hk]
  interval_cases k <;> simp only [Sys2Proof.encode, Sys2Proof.Instr.opcode, BitVec.getLsbD_append] <;> rfl

theorem Sys2Proof.Laws.EncodesOwnOpcode.res :
    Sys2Proof.Laws.EncodesOwnOpcode.Statement .res := by
  unfold Sys2Proof.Laws.EncodesOwnOpcode.Statement; decide

theorem Sys2Proof.Laws.EncodesOwnOpcode.lea (dr : Sys2Proof.Reg) (off : BitVec 9) :
    Sys2Proof.Laws.EncodesOwnOpcode.Statement (.lea dr off) := by
  refine BitVec.eq_of_getLsbD_eq fun k hk => ?_
  rw [Sys2Proof.getBits_getLsbD _ _ _ _ hk]
  interval_cases k <;> simp only [Sys2Proof.encode, Sys2Proof.Instr.opcode, BitVec.getLsbD_append] <;> rfl

theorem Sys2Proof.Laws.EncodesOwnOpcode.trap (vec : Sys2Proof.Byte) :
    Sys2Proof.Laws.EncodesOwnOpcode.Statement (.trap vec) := by
  refine BitVec.eq_of_getLsbD_eq fun k hk => ?_
  rw [Sys2Proof.getBits_getLsbD _ _ _ _ hk]
  interval_cases k <;> simp only [Sys2Proof.encode, Sys2Proof.Instr.opcode, BitVec.getLsbD_append] <;> rfl

theorem Sys2Proof.Laws.EncodesOwnOpcode.getc :
    Sys2Proof.Laws.EncodesOwnOpcode.Statement .getc := by
  unfold Sys2Proof.Laws.EncodesOwnOpcode.Statement; decide

theorem Sys2Proof.Laws.EncodesOwnOpcode.out :
    Sys2Proof.Laws.EncodesOwnOpcode.Statement .out := by
  unfold Sys2Proof.Laws.EncodesOwnOpcode.Statement; decide

theorem Sys2Proof.Laws.EncodesOwnOpcode.puts :
    Sys2Proof.Laws.EncodesOwnOpcode.Statement .puts := by
  unfold Sys2Proof.Laws.EncodesOwnOpcode.Statement; decide

theorem Sys2Proof.Laws.EncodesOwnOpcode.inp :
    Sys2Proof.Laws.EncodesOwnOpcode.Statement .inp := by
  unfold Sys2Proof.Laws.EncodesOwnOpcode.Statement; decide

theorem Sys2Proof.Laws.EncodesOwnOpcode.putsp :
    Sys2Proof.Laws.EncodesOwnOpcode.Statement .putsp := by
  unfold Sys2Proof.Laws.EncodesOwnOpcode.Statement; decide

theorem Sys2Proof.Laws.EncodesOwnOpcode.halt :
    Sys2Proof.Laws.EncodesOwnOpcode.Statement .halt := by
  unfold Sys2Proof.Laws.EncodesOwnOpcode.Statement; decide
end

