-- ==== Sys2Proof/Laws/Scan.lean ====
section
/-! SUPPORT. The scans of PUTS and PUTSP, many words at once, and the host's answers they use up
(spec/45_trap.md R203, R208, R212). -/

namespace Sys2Proof.Machine

/-- The ways the host answers Ok. -/
theorem Answers.take_ok {q r : Answers CoutAnswer} (h : q.take = some (.ok, r)) :
    (∃ l, q.script = .ok :: l ∧ r = ⟨l, q.after⟩) ∨ (q.script = [] ∧ q.after = some .ok ∧ r = q) := by
  obtain ⟨sc, af⟩ := q
  cases sc with
  | nil => cases af with
    | none => cases h
    | some a => cases h; exact .inr ⟨rfl, rfl, rfl⟩
  | cons a l => cases h; exact .inl ⟨l, rfl, rfl⟩

/-- What is left after `n` accepted events: within the script, or past it. -/
theorem oks_shape : ∀ (n : Nat) (q r : Answers CoutAnswer), oks n q = some r →
    (n ≤ q.script.length ∧ r.script.length = q.script.length - n ∧ r.after = q.after) ∨
    (q.after = some .ok ∧ r = ⟨[], some .ok⟩) := by
  intro n
  induction n with
  | zero => intro q r h; cases h; exact .inl ⟨Nat.zero_le _, rfl, rfl⟩
  | succ n ih =>
    intro q r h
    simp only [oks] at h
    split at h
    · rename_i rest hr
      rcases Answers.take_ok hr with ⟨l, hl, rfl⟩ | ⟨hs, ha, rfl⟩
      · rcases ih _ _ h with ⟨h1, h2, h3⟩ | h2
        · left; simp [hl] at *; exact ⟨h1, h2, h3⟩
        · exact .inr h2
      · rcases ih _ _ h with ⟨h1, h2, h3⟩ | h2
        · right; refine ⟨ha, ?_⟩; obtain ⟨a, b⟩ := r; simp_all
        · exact .inr h2
    · cases h
    · cases h

/-- Where the host accepts `n` events and not the next one, those `n` lie within its script. -/
theorem oks_bound {n : Nat} {q r : Answers CoutAnswer} (h : oks n q = some r)
    (hf : ∀ x, r.take ≠ some (.ok, x)) : n ≤ q.script.length := by
  rcases oks_shape _ _ _ h with h | ⟨_, rfl⟩
  · exact h.1
  · exact absurd rfl (hf ⟨[], some .ok⟩)

/-- Accepting `n + m` events is accepting `n` and then `m`. -/
theorem oks_add (m : Nat) : ∀ n q, oks (n + m) q = (oks n q).bind (oks m) := by
  intro n
  induction n with
  | zero => intro q; simp [oks]
  | succ n ih =>
    intro q; rw [show n + 1 + m = (n + m) + 1 by omega]; simp only [oks]; split
    · exact ih _
    · rfl
    · rfl

/-- The address after the next one, two ways (R208, R212). -/
theorem scan_next (a : Word) (j : Nat) :
    a + 0x0001#16 + BitVec.ofNat 16 j = a + BitVec.ofNat 16 (j + 1) := by
  apply BitVec.eq_of_toNat_eq
  simp only [BitVec.toNat_add, BitVec.toNat_ofNat]
  omega

/-- PUTS's scan over `k` words that are not zero, every character accepted (R208). -/
theorem puts_run (f : Nat) : ∀ (k : Nat) (a : Word) (s : State) (q),
    (∀ j, j < k → s.memRead (a + BitVec.ofNat 16 j) ≠ 0x0000#16) → oks k s.cout = some q →
    putsFrom (f + k) a s = putsFrom f (a + BitVec.ofNat 16 k)
      { s with
        output := s.output ++
          (List.range k).map (fun j => Event.char (lowByte (s.memRead (a + BitVec.ofNat 16 j))))
        cout := q } := by
  intro k
  induction k with
  | zero => intro a s q _ h; cases h; simp
  | succ k ih =>
    intro a s q hz h
    rw [show f + (k + 1) = (f + k) + 1 by omega]
    simp only [putsFrom]
    have h0 := hz 0 (by omega); rw [show a + BitVec.ofNat 16 0 = a by simp] at h0
    rw [if_neg h0]
    simp only [oks] at h
    split at h
    · rename_i rest hr
      rw [consoleWrite, emit_ok _ _ hr]
      rw [ih (q := q)]
      rotate_left
      · intro j hj; rw [scan_next]; exact hz (j + 1) (by omega)
      · exact h
      rw [scan_next]
      congr 2
      rw [List.range_succ_eq_map]
      simp [scan_next]; exact fun _ _ => rfl
    · cases h
    · cases h

/-- PUTSP's scan over `k` words without a zero byte, every character accepted (R212). -/
theorem putsp_run (f : Nat) : ∀ (k : Nat) (a : Word) (s : State) (q),
    (∀ j, j < k → lowByte (s.memRead (a + BitVec.ofNat 16 j)) ≠ 0x00#8 ∧
      highByte (s.memRead (a + BitVec.ofNat 16 j)) ≠ 0x00#8) →
    oks (2 * k) s.cout = some q →
    putspFrom (f + k) a s = putspFrom f (a + BitVec.ofNat 16 k)
      { s with
        output := s.output ++ (List.range k).flatMap (fun j =>
          [Event.char (lowByte (s.memRead (a + BitVec.ofNat 16 j))),
            Event.char (highByte (s.memRead (a + BitVec.ofNat 16 j)))])
        cout := q } := by
  intro k
  induction k with
  | zero => intro a s q _ h; cases h; simp
  | succ k ih =>
    intro a s q hz h
    rw [show f + (k + 1) = (f + k) + 1 by omega]
    simp only [putspFrom]
    have h0 := hz 0 (by omega); rw [show a + BitVec.ofNat 16 0 = a by simp] at h0
    rw [if_neg h0.1]
    rw [show 2 * (k + 1) = 2 * k + 1 + 1 by omega] at h
    simp only [oks] at h
    split at h
    · rename_i rest hr
      rw [consoleWrite, emit_ok _ _ hr, if_neg h0.2]
      split at h
      · rename_i rest' hr'
        rw [consoleWrite, emit_ok _ _ hr']
        rw [ih (q := q)]
        rotate_left
        · intro j hj; rw [scan_next]; exact hz (j + 1) (by omega)
        · exact h
        rw [scan_next]
        congr 2
        rw [List.range_succ_eq_map]
        simp [scan_next, List.flatMap_map]; rfl
      · cases h
      · cases h
    · cases h
    · cases h

/-- Where PUTS's scan has not ended after `n` words, none of them is zero and the host accepted `n` characters
(R209). With `puts_run`, which then gives the state reached, this is all a scan that never ends can be. -/
theorem puts_neverEnds : ∀ (n : Nat) (a : Word) (s u : State) (b : Word),
    putsFrom n a s = .fault (.neverEnds u b) →
    (∀ j, j < n → s.memRead (a + BitVec.ofNat 16 j) ≠ 0x0000#16) ∧
    (oks n s.cout).isSome = true := by
  intro n
  induction n with
  | zero => intro a s u b _; exact ⟨fun j h => by omega, rfl⟩
  | succ n ih =>
    intro a s u b h
    simp only [putsFrom] at h
    split at h
    · cases h
    · rename_i h0
      unfold consoleWrite emit at h
      split at h
      · rename_i rest hr
        obtain ⟨h1, h2⟩ := ih _ _ _ _ h
        refine ⟨fun j hj => ?_, ?_⟩
        · cases j with
          | zero => simpa using h0
          | succ j => rw [← scan_next]; exact h1 j (by omega)
        · simp only [oks, hr]; exact h2
      · cases h
      · cases h

/-- The same for PUTSP's scan: no byte of the `n` words is zero and the host accepted `2 * n` characters. -/
theorem putsp_neverEnds : ∀ (n : Nat) (a : Word) (s u : State) (b : Word),
    putspFrom n a s = .fault (.neverEnds u b) →
    (∀ j, j < n → lowByte (s.memRead (a + BitVec.ofNat 16 j)) ≠ 0x00#8 ∧
      highByte (s.memRead (a + BitVec.ofNat 16 j)) ≠ 0x00#8) ∧
    (oks (2 * n) s.cout).isSome = true := by
  intro n
  induction n with
  | zero => intro a s u b _; exact ⟨fun j h => by omega, rfl⟩
  | succ n ih =>
    intro a s u b h
    simp only [putspFrom] at h
    split at h
    · cases h
    · rename_i h0
      unfold consoleWrite emit at h
      split at h
      · rename_i rest hr
        split at h
        · cases h
        rename_i h00
        dsimp only at h
        split at h
        · rename_i rest' hr'
          obtain ⟨h1, h2⟩ := ih _ _ _ _ h
          refine ⟨fun j hj => ?_, ?_⟩
          · cases j with
            | zero => simpa using ⟨h0, h00⟩
            | succ j => rw [← scan_next]; exact h1 j (by omega)
          · rw [show 2 * (n + 1) = 2 * n + 1 + 1 by omega]; simp only [oks, hr]
            have hr'' : rest.take = some (.ok, rest') := hr'
            simp only [hr'']; exact h2
        · cases h
        · cases h
      · cases h
      · cases h

end Sys2Proof.Machine
end

