-- ==== Sys2Proof/Tests/Slice0.lean ====
section
/-! SUPPORT. The model's own tests. Expected results are those of spec/95_test_vectors.md (the vector's name
stands beside each test) or words written out bit by bit from spec/30_encoding.md R88-R98. The witnesses show,
for every statement with hypotheses, a concrete input that meets them, each clause at a boundary. -/

open Sys2Proof Sys2Proof.Machine

namespace Sys2Proof.Tests

/-- The next state a result answers, if it answers one. -/
def after (r : Result) : Option State :=
  match r with
  | .next t => some t
  | .fault _ => none
  | .refused _ => none

/-- The state a fault carries, for a step that waits for the host or never ends. -/
def waiting (r : Result) : Option State :=
  match r with
  | .next _ => none
  | .fault (.inputWait t) => some t
  | .fault (.outputWait t) => some t
  | .fault (.neverEnds t _) => some t
  | .refused _ => none

/-- A vector's pre state: reset, RUNNING, with the instruction word `w` at address `pc`. -/
def start (pc w : Word) : State := { State.reset.memWrite pc w with pc := pc, runState := .running }

/-- The state after one step from a vector's pre state. -/
def stepped (s : State) : Option State := after (step s)

/-- A RUNNING state right after the fetch of a word at 0x3000, as `exec` sees it. -/
def running : State := { State.reset with pc := 0x3001#16, runState := .running }

/-- `running` where the host fails every output event. -/
def hostFails : State := { running with cout := ⟨[], some .fail⟩ }

/-- `running` where the host answers nothing at all. -/
def hostSilent : State := { running with cin := ⟨[], none⟩, cout := ⟨[], none⟩ }

/-- `s` with the byte `b` typed, and no answer after it. -/
def typed (b : Byte) (s : State) : State := { s with cin := ⟨[.byte b], none⟩ }

/-- `s` where the host accepts `n` output events and fails the next. -/
def failsAfter (n : Nat) (s : State) : State := { s with cout := ⟨List.replicate n .ok, some .fail⟩ }

/-! ### Well-formedness -/

theorem test_wellFormed_refuses_service_vectors :
    (Instr.trap 0x20#8).wellFormed = false ∧ (Instr.trap 0x22#8).wellFormed = false ∧
    (Instr.trap 0x25#8).wellFormed = false := by decide

theorem test_wellFormed_accepts_the_vectors_beside :
    (Instr.trap 0x1F#8).wellFormed = true ∧ (Instr.trap 0x26#8).wellFormed = true ∧
    (Instr.trap 0x00#8).wellFormed = true ∧ (Instr.trap 0xFF#8).wellFormed = true := by decide

/-! ### Decoding: one word for each constructor, field by field from bit 15 down -/

theorem test_decode_operate :
    decode (0b0001#4 ++ 0b110#3 ++ 0b101#3 ++ 0b0#1 ++ 0b00#2 ++ 0b011#3) = .addReg .r6 .r5 .r3 ∧
    decode (0b0001#4 ++ 0b010#3 ++ 0b011#3 ++ 0b1#1 ++ 0b10000#5) = .addImm .r2 .r3 0b10000#5 ∧
    decode (0b0101#4 ++ 0b001#3 ++ 0b111#3 ++ 0b0#1 ++ 0b00#2 ++ 0b100#3) = .andReg .r1 .r7 .r4 ∧
    decode (0b0101#4 ++ 0b100#3 ++ 0b001#3 ++ 0b1#1 ++ 0b01111#5) = .andImm .r4 .r1 0b01111#5 ∧
    decode (0b1001#4 ++ 0b001#3 ++ 0b110#3 ++ 0b111111#6) = .not .r1 .r6 := by decide

theorem test_decode_control :
    decode (0b0000#4 ++ 0b101#3 ++ 0b100000001#9) = .br 0b101#3 0b100000001#9 ∧
    decode (0b1100#4 ++ 0b000#3 ++ 0b110#3 ++ 0b000000#6) = .jmp .r6 ∧
    decode (0b0100#4 ++ 0b1#1 ++ 0b10000000001#11) = .jsr 0b10000000001#11 ∧
    decode (0b0100#4 ++ 0b0#1 ++ 0b00#2 ++ 0b011#3 ++ 0b000000#6) = .jsrr .r3 := by decide

theorem test_decode_load_store :
    decode (0b0010#4 ++ 0b011#3 ++ 0b100000010#9) = .ld .r3 0b100000010#9 ∧
    decode (0b0011#4 ++ 0b110#3 ++ 0b011111111#9) = .st .r6 0b011111111#9 ∧
    decode (0b0110#4 ++ 0b001#3 ++ 0b100#3 ++ 0b100001#6) = .ldr .r1 .r4 0b100001#6 ∧
    decode (0b0111#4 ++ 0b011#3 ++ 0b110#3 ++ 0b011110#6) = .str .r3 .r6 0b011110#6 ∧
    decode (0b1010#4 ++ 0b101#3 ++ 0b000000111#9) = .ldi .r5 0b000000111#9 ∧
    decode (0b1011#4 ++ 0b010#3 ++ 0b111000000#9) = .sti .r2 0b111000000#9 ∧
    decode (0b1110#4 ++ 0b111#3 ++ 0b101010101#9) = .lea .r7 0b101010101#9 := by decide

theorem test_decode_terminal_and_trap :
    decode (0b1000#4 ++ 0b000000000000#12) = .rti ∧ decode (0b1101#4 ++ 0b101010111100#12) = .res ∧
    decode (0b1111#4 ++ 0b0000#4 ++ 0b00100000#8) = .getc ∧
    decode (0b1111#4 ++ 0b0000#4 ++ 0b00100001#8) = .out ∧
    decode (0b1111#4 ++ 0b0000#4 ++ 0b00100010#8) = .puts ∧
    decode (0b1111#4 ++ 0b0000#4 ++ 0b00100011#8) = .inp ∧
    decode (0b1111#4 ++ 0b0000#4 ++ 0b00100100#8) = .putsp ∧
    decode (0b1111#4 ++ 0b0000#4 ++ 0b00100101#8) = .halt ∧
    decode (0b1111#4 ++ 0b0000#4 ++ 0b00011111#8) = .trap 0x1F#8 ∧
    decode (0b1111#4 ++ 0b0000#4 ++ 0b00100110#8) = .trap 0x26#8 := by decide

/-- The opcode table's ADD row (register mode), its bits numbered as the table numbers them. -/
theorem test_decodeTableWord : decodeTableWord 16 0x1443 = some (.addReg .r2 .r1 .r3) := by decide

/-- The placed word is what the next step runs: V-RES-1's word, from reset. -/
theorem test_withFetchWord :
    (stepped (State.reset.withFetchWord 16 0xD000)).map (fun t => (t.pc, t.runState, t.haltCause)) =
      some (0x0001#16, .halted, .opRes) := by decide

/-! ### Primitives -/

/-- W1's table. -/
theorem test_sext :
    sext 0x0F#5 = 0x000F#16 ∧ sext 0x10#5 = 0xFFF0#16 ∧ sext 0x1F#5 = 0xFFFF#16 ∧
    sext 0x1F#6 = 0x001F#16 ∧ sext 0x20#6 = 0xFFE0#16 ∧ sext 0x0FF#9 = 0x00FF#16 ∧
    sext 0x100#9 = 0xFF00#16 ∧ sext 0x1FE#9 = 0xFFFE#16 ∧ sext 0x3FF#11 = 0x03FF#16 ∧
    sext 0x400#11 = 0xFC00#16 ∧ sext 0x1#1 = 0xFFFF#16 ∧ sext 0x8000#16 = 0x8000#16 := by decide

/-- V-CC-1 to V-CC-5, V-ZX-1. -/
theorem test_cc_and_zext :
    cc 0x0000#16 = 0b010#3 ∧ cc 0x0001#16 = 0b001#3 ∧ cc 0x7FFF#16 = 0b001#3 ∧ cc 0x8000#16 = 0b100#3 ∧
    cc 0xFFFF#16 = 0b100#3 ∧ zext8 0xFF#8 = 0x00FF#16 := by decide

/-! ### Operate -/

/-- V-ADD-6: both sources read before the write. -/
theorem test_addReg_source_is_destination :
    (stepped ((start 0x3000#16 0x1241#16).setReg .r1 0x4000#16)).map (fun t => (t.pc, t.reg .r1, t.cond)) =
      some (0x3001#16, 0x8000#16, 0b100#3) := by decide

/-- V-ADD-3: the carry is discarded. -/
theorem test_addReg_wraps :
    (stepped (((start 0x3000#16 0x1042#16).setReg .r1 0xFFFF#16).setReg .r2 0x0001#16)).map
      (fun t => (t.pc, t.reg .r0, t.cond)) = some (0x3001#16, 0x0000#16, 0b010#3) := by decide

/-- V-ADD-8. -/
theorem test_addImm_most_negative :
    (stepped (start 0x3000#16 0x14F0#16)).map (fun t => (t.reg .r2, t.cond)) =
      some (0xFFF0#16, 0b100#3) := by decide

/-- V-ADD-10. -/
theorem test_addImm_signed_overflow :
    (stepped ((start 0x3000#16 0x14FF#16).setReg .r3 0x8000#16)).map (fun t => (t.reg .r2, t.cond)) =
      some (0x7FFF#16, 0b001#3) := by decide

/-- V-AND-3. -/
theorem test_andReg :
    (stepped (((start 0x3000#16 0x5042#16).setReg .r1 0xFFFF#16).setReg .r2 0x8000#16)).map
      (fun t => (t.reg .r0, t.cond)) = some (0x8000#16, 0b100#3) := by decide

/-- V-AND-7: imm5 extends to 0xFFF0. -/
theorem test_andImm_extends :
    (stepped ((start 0x3000#16 0x54F0#16).setReg .r3 0x1234#16)).map (fun t => (t.reg .r2, t.cond)) =
      some (0x1230#16, 0b001#3) := by decide

/-- V-NOT-5: the filler bits are ignored. -/
theorem test_not_unused_bits :
    (stepped ((start 0x3000#16 0x9280#16).setReg .r2 0x8000#16)).map (fun t => (t.reg .r1, t.cond)) =
      some (0x7FFF#16, 0b001#3) := by decide

/-- V-NOT-4. -/
theorem test_not_source_is_destination :
    (stepped ((start 0x3000#16 0x927F#16).setReg .r1 0x00FF#16)).map (fun t => (t.reg .r1, t.cond)) =
      some (0xFF00#16, 0b100#3) := by decide

/-! ### Control -/

/-- V-BR-5: PC' wraps to 0, then the offset. -/
theorem test_br_at_top : (stepped (start 0xFFFF#16 0x0E01#16)).map (·.pc) = some 0x0001#16 := by decide

/-- V-BR, mask 101 (np) with COND = Z: not taken. -/
theorem test_br_not_taken :
    (stepped (start 0x3000#16 0x0A05#16)).map (fun t => (t.pc, t.cond)) = some (0x3001#16, 0b010#3) := by
  decide

/-- V-JMP-2: unused bits set. -/
theorem test_jmp_unused_bits :
    (stepped ((start 0x3000#16 0xCEBF#16).setReg .r2 0x4000#16)).map (fun t => (t.pc, t.cond)) =
      some (0x4000#16, 0b010#3) := by decide

/-- V-JMP-3: RET. -/
theorem test_ret :
    (stepped ((start 0x3000#16 0xC1C0#16).setReg .r7 0x3005#16)).map (·.pc) = some 0x3005#16 := by decide

/-- V-JSR-3. -/
theorem test_jsr_backwards :
    (stepped (start 0x3000#16 0x4C00#16)).map (fun t => (t.pc, t.reg .r7)) =
      some (0x2C01#16, 0x3001#16) := by decide

/-- V-JSR-4. -/
theorem test_jsr_at_top :
    (stepped (start 0xFFFF#16 0x4801#16)).map (fun t => (t.pc, t.reg .r7)) =
      some (0x0001#16, 0x0000#16) := by decide

/-- V-JSRR-2: BaseR = R7 is read before the link write. -/
theorem test_jsrr_r7 :
    (stepped ((start 0x3000#16 0x41C0#16).setReg .r7 0x4000#16)).map (fun t => (t.pc, t.reg .r7)) =
      some (0x4000#16, 0x3001#16) := by decide

/-- V-JSRR-3: the link write leaves COND. -/
theorem test_jsrr_cond :
    (stepped { (start 0x3000#16 0x40C0#16).setReg .r3 0x8000#16 with cond := 0b001#3 }).map
      (fun t => (t.pc, t.reg .r7, t.cond)) = some (0x8000#16, 0x3001#16, 0b001#3) := by decide

/-! ### Loads and stores -/

/-- V-LD-1. -/
theorem test_ld :
    (stepped ((start 0x3000#16 0x2205#16).memWrite 0x3006#16 0x8000#16)).map
      (fun t => (t.pc, t.reg .r1, t.cond)) = some (0x3001#16, 0x8000#16, 0b100#3) := by decide

/-- V-LD-4: the load reads its own word. -/
theorem test_ld_own_word :
    (stepped (start 0x3000#16 0x25FF#16)).map (fun t => (t.reg .r2, t.cond)) =
      some (0x25FF#16, 0b001#3) := by decide

/-- V-ST-2: COND stays N. -/
theorem test_st_over_itself :
    (stepped { (start 0x3000#16 0x35FF#16).setReg .r2 0x1234#16 with cond := 0b100#3 }).map
      (fun t => (t.pc, t.memRead 0x3000#16, t.cond)) = some (0x3001#16, 0x1234#16, 0b100#3) := by decide

/-- V-ST-3: the address wraps down. -/
theorem test_st_wraps :
    (stepped ((start 0x0000#16 0x3FFE#16).setReg .r7 0x00AA#16)).map
      (fun t => (t.pc, t.memRead 0xFFFF#16)) = some (0x0001#16, 0x00AA#16) := by decide

/-- V-LDR-3: base and destination are one register. -/
theorem test_ldr_base_is_destination :
    (stepped (((start 0x3000#16 0x6240#16).setReg .r1 0x4000#16).memWrite 0x4000#16 0xFFFF#16)).map
      (fun t => (t.reg .r1, t.cond)) = some (0xFFFF#16, 0b100#3) := by decide

/-- V-LDR-4: the address wraps. -/
theorem test_ldr_wraps :
    (stepped (((start 0x3000#16 0x629F#16).setReg .r2 0xFFF0#16).memWrite 0x000F#16 0x0042#16)).map
      (fun t => (t.reg .r1, t.cond)) = some (0x0042#16, 0b001#3) := by decide

/-- V-STR-2. -/
theorem test_str :
    (stepped (((start 0x3000#16 0x72BF#16).setReg .r1 0xAAAA#16).setReg .r2 0x5000#16)).map
      (fun t => (t.memRead 0x4FFF#16, t.cond)) = some (0xAAAA#16, 0b010#3) := by decide

/-- V-STR-3: the address wraps. -/
theorem test_str_wraps :
    (stepped ((start 0x3000#16 0x7260#16).setReg .r1 0x0010#16)).map (·.memRead 0xFFF0#16) =
      some 0x0010#16 := by decide

/-- V-LDI-1. -/
theorem test_ldi :
    (stepped (((start 0x3000#16 0xA200#16).memWrite 0x3001#16 0x4000#16).memWrite 0x4000#16 0x1234#16)).map
      (fun t => (t.pc, t.reg .r1, t.cond)) = some (0x3001#16, 0x1234#16, 0b001#3) := by decide

/-- V-LDI-2: a pointer to itself. -/
theorem test_ldi_self_pointer :
    (stepped ((start 0x3000#16 0xA200#16).memWrite 0x3001#16 0x3001#16)).map (fun t => (t.reg .r1, t.cond)) =
      some (0x3001#16, 0b001#3) := by decide

/-- V-STI-2: the pointer is overwritten. -/
theorem test_sti_over_pointer :
    (stepped (((start 0x3000#16 0xB200#16).setReg .r1 0xCAFE#16).memWrite 0x3001#16 0x3001#16)).map
      (fun t => (t.pc, t.memRead 0x3001#16)) = some (0x3001#16, 0xCAFE#16) := by decide

/-- V-STI-3: the pointer is the instruction's own word. -/
theorem test_sti_own_word :
    (stepped ((start 0x3000#16 0xB3FF#16).setReg .r1 0x0007#16)).map (·.memRead 0xB3FF#16) =
      some 0x0007#16 := by decide

/-- V-LEA-2. -/
theorem test_lea_at_top :
    (stepped (start 0xFFFF#16 0xE200#16)).map (fun t => (t.pc, t.reg .r1, t.cond)) =
      some (0x0000#16, 0x0000#16, 0b010#3) := by decide

/-- V-LEA-3. -/
theorem test_lea_negative :
    (stepped (start 0x7FFF#16 0xE200#16)).map (fun t => (t.pc, t.reg .r1, t.cond)) =
      some (0x8000#16, 0x8000#16, 0b100#3) := by decide

/-! ### The opcodes that end the run -/

/-- V-RTI-2. -/
theorem test_rti :
    (stepped (start 0x3000#16 0x8FFF#16)).map (fun t => (t.pc, t.output, t.runState, t.haltCause)) =
      some (0x3001#16, [.notice (.unimplementedOpcode .rti)], .halted, .opRti) := by decide

/-- V-RTI-3. -/
theorem test_rti_output_fails :
    (stepped (failsAfter 0 (start 0x3000#16 0x8000#16))).map
      (fun t => (t.pc, t.output, t.runState, t.haltCause, t.faultCause)) =
      some (0x3001#16, [], .faulted, .none, .outputFail) := by decide

/-- V-RES-2. -/
theorem test_res :
    (stepped (start 0x3000#16 0xDABC#16)).map (fun t => (t.pc, t.output, t.runState, t.haltCause)) =
      some (0x3001#16, [.notice (.unimplementedOpcode .res)], .halted, .opRes) := by decide

/-! ### Trap services -/

/-- V-TRAP-3: zero extension. -/
theorem test_getc :
    (stepped (typed 0xFF#8 (start 0x3000#16 0xF020#16))).map
      (fun t => (t.pc, t.reg .r7, t.reg .r0, t.cond, t.output)) =
      some (0x3001#16, 0x3001#16, 0x00FF#16, 0b001#3, []) := by decide

/-- V-TRAP-4. -/
theorem test_getc_end_of_input :
    (stepped ((start 0x3000#16 0xF020#16).setReg .r0 0x1234#16)).map
      (fun t => (t.reg .r7, t.reg .r0, t.cond, t.runState, t.faultCause)) =
      some (0x3001#16, 0x1234#16, 0b010#3, .faulted, .inputEnd) := by decide

/-- V-TRAP-5. -/
theorem test_out :
    (stepped ((start 0x3000#16 0xF021#16).setReg .r0 0x1241#16)).map (fun t => (t.pc, t.reg .r7, t.output)) =
      some (0x3001#16, 0x3001#16, [.char 0x41#8]) := by decide

/-- V-TRAP-7. -/
theorem test_out_fails :
    (stepped (failsAfter 0 ((start 0x3000#16 0xF021#16).setReg .r0 0x0041#16))).map
      (fun t => (t.output, t.runState, t.faultCause)) = some ([], .faulted, .outputFail) := by decide

/-- V-TRAP-10: the scan wraps. -/
theorem test_puts_wraps :
    (stepped (((start 0x3000#16 0xF022#16).setReg .r0 0xFFFF#16).memWrite 0xFFFF#16 0x0041#16)).map
      (fun t => (t.pc, t.reg .r0, t.output, t.runState)) =
      some (0x3001#16, 0xFFFF#16, [.char 0x41#8], .running) := by decide

/-- V-TRAP-11: the second character fails. -/
theorem test_puts_fails :
    (stepped (failsAfter 1 ((((start 0x3000#16 0xF022#16).setReg .r0 0x4000#16).memWrite
        0x4000#16 0x4142#16).memWrite 0x4001#16 0x0043#16))).map
      (fun t => (t.output, t.runState, t.faultCause)) =
      some ([.char 0x42#8], .faulted, .outputFail) := by decide

/-- V-TRAP-12. -/
theorem test_in :
    (stepped (typed 0x7A#8 (start 0x3000#16 0xF023#16))).map
      (fun t => (t.reg .r7, t.reg .r0, t.cond, t.output, t.runState)) =
      some (0x3001#16, 0x007A#16, 0b001#3, [.notice .inPrompt, .char 0x7A#8], .running) := by decide

/-- V-TRAP-14: the echo fails; the byte was consumed. -/
theorem test_in_echo_fails :
    (stepped (failsAfter 1 (typed 0x7A#8 ((start 0x3000#16 0xF023#16).setReg .r0 0x1234#16)))).map
      (fun t => (t.reg .r0, t.cond, t.output, t.cin.script, t.faultCause)) =
      some (0x1234#16, 0b010#3, [.notice .inPrompt], [], .outputFail) := by decide

/-- V-TRAP-16: the low byte is zero. -/
theorem test_putsp_low_byte_zero :
    (stepped (((start 0x3000#16 0xF024#16).setReg .r0 0x4000#16).memWrite 0x4000#16 0x4100#16)).map
      (fun t => (t.output, t.runState)) = some ([], .running) := by decide

/-- V-TRAP-19: low byte first; the scan wraps. -/
theorem test_putsp_wraps :
    (stepped ((((start 0x3000#16 0xF024#16).setReg .r0 0xFFFF#16).memWrite 0xFFFF#16 0x4241#16).memWrite
        0x0000#16 0x0043#16)).map (fun t => (t.reg .r0, t.output)) =
      some (0xFFFF#16, [.char 0x41#8, .char 0x42#8, .char 0x43#8]) := by decide

/-- Rule R209: a scan cut short after its words keeps the characters written, and goes on at the next address. -/
theorem test_scan_not_ended_keeps_characters :
    (waiting (putsFrom 1 0xFFFF#16 (running.memWrite 0xFFFF#16 0x0041#16))).map (·.output) =
      some [.char 0x41#8] ∧
    putspFrom 0 0x4000#16 running = .fault (.neverEnds running 0x4000#16) := ⟨by decide, rfl⟩

/-- V-TRAP-21. -/
theorem test_halt :
    (stepped (start 0x3000#16 0xFF25#16)).map
      (fun t => (t.pc, t.reg .r7, t.output, t.runState, t.haltCause)) =
      some (0x3001#16, 0x3001#16, [.notice .haltNotice], .halted, .trapHalt) := by decide

/-- V-TRAP-22. -/
theorem test_halt_fails :
    (stepped (failsAfter 0 (start 0x3000#16 0xF025#16))).map
      (fun t => (t.output, t.runState, t.haltCause, t.faultCause)) =
      some ([], .faulted, .none, .outputFail) := by decide

/-- V-TRAP-24. -/
theorem test_trap_last_vector :
    (stepped (start 0x3000#16 0xF0FF#16)).map (fun t => (t.output, t.runState)) =
      some ([.notice (.unimplementedTrap 0xFF#8)], .running) := by decide

/-- V-TRAP-25. -/
theorem test_trap_keeps_cond :
    (stepped { start 0x3000#16 0xF026#16 with cond := 0b100#3 }).map
      (fun t => (t.reg .r7, t.cond, t.output)) =
      some (0x3001#16, 0b100#3, [.notice (.unimplementedTrap 0x26#8)]) := by decide

/-- V-STEP-1. -/
theorem test_step_outside_running :
    stepped { start 0x3000#16 0x1241#16 with runState := .halted } =
      some { start 0x3000#16 0x1241#16 with runState := .halted } := by decide

/-- Rule R204: without an answer IN waits, its prompt already shown. -/
theorem test_in_waits :
    (waiting (exec .inp { running with cin := ⟨[], none⟩ })).map (fun t => (t.reg .r7, t.output, t.runState)) =
      some (0x3001#16, [.notice .inPrompt], .running) := by decide

/-! ### Boot -/

/-- L3: a plausible origin. -/
theorem test_boot_header :
    (boot (fun _ => true) [0x30#8, 0x00#8, 0x12#8, 0x20#8, 0xF0#8, 0x25#8] State.reset).2 =
      .started 0x3000#16 ∧
    (boot (fun _ => true) [0x30#8, 0x00#8, 0x12#8, 0x20#8, 0xF0#8, 0x25#8] State.reset).1.mem =
      [(0x3000, 0x1220#16), (0x3001, 0xF025#16)] := by decide

/-- L4: an implausible first word. -/
theorem test_boot_no_header :
    (boot (fun _ => false) [0x30#8, 0x00#8, 0x12#8, 0x20#8, 0xF0#8, 0x25#8] State.reset).2 =
      .started 0x3000#16 ∧
    (boot (fun _ => false) [0x30#8, 0x00#8, 0x12#8, 0x20#8, 0xF0#8, 0x25#8] State.reset).1.mem =
      [(0x3000, 0x3000#16), (0x3001, 0x1220#16), (0x3002, 0xF025#16)] := by decide

/-- L2 and L7. -/
theorem test_boot_load_errors :
    (boot (fun _ => true) [0x30#8, 0x00#8, 0x12#8] State.reset).2 = .loadError ∧
    (boot (fun _ => true) [0xFF#8, 0xFF#8, 0x12#8, 0x34#8, 0x56#8, 0x78#8] State.reset).2 = .loadError := by
  decide

/-! ### Witnesses: each statement's hypotheses can be met, clause by clause -/

theorem witness_StepFetchesAdvancesAndDispatches :
    (start 0x3000#16 0x1042#16).runState = .running ∧
    (start 0xFFFF#16 0x0E00#16).runState = .running ∧ (start 0xFFFF#16 0x0E00#16).pc = 0xFFFF#16 := by
  decide

/-- V-TRAP-20's run ends after one step; a machine in reset, HALTED or FAULTED makes none. -/
theorem witness_RunToHaltIsRepeatedSteps :
    State.reset.runState ≠ .running ∧
    ∃ t, runToHalt 1 (start 0x3000#16 0xF025#16) = .next t ∧ t.runState ≠ .running :=
  ⟨by decide, _, rfl, by decide⟩

theorem witness_OpcodeSelectsTheVariant :
    getBits 0x0FFF#16 12 4 = 0x0#4 ∧ getBits 0x1FDF#16 12 4 = 0x1#4 ∧ (0x1FDF#16).getLsbD 5 = false ∧
    getBits 0x1020#16 12 4 = 0x1#4 ∧ (0x1020#16).getLsbD 5 = true ∧ getBits 0x2000#16 12 4 = 0x2#4 ∧
    getBits 0x3FFF#16 12 4 = 0x3#4 ∧ getBits 0x4800#16 12 4 = 0x4#4 ∧ (0x4800#16).getLsbD 11 = true ∧
    getBits 0x47FF#16 12 4 = 0x4#4 ∧ (0x47FF#16).getLsbD 11 = false ∧
    getBits 0x5FDF#16 12 4 = 0x5#4 ∧ (0x5FDF#16).getLsbD 5 = false ∧ getBits 0x5020#16 12 4 = 0x5#4 ∧
    (0x5020#16).getLsbD 5 = true ∧ getBits 0x6000#16 12 4 = 0x6#4 ∧ getBits 0x7FFF#16 12 4 = 0x7#4 ∧
    getBits 0x8FFF#16 12 4 = 0x8#4 ∧ getBits 0x9000#16 12 4 = 0x9#4 ∧ getBits 0xA000#16 12 4 = 0xA#4 ∧
    getBits 0xBFFF#16 12 4 = 0xB#4 ∧ getBits 0xC000#16 12 4 = 0xC#4 ∧ getBits 0xDFFF#16 12 4 = 0xD#4 ∧
    getBits 0xE000#16 12 4 = 0xE#4 ∧ getBits 0xFFFF#16 12 4 = 0xF#4 := by decide

theorem witness_DecodeOfEncodeIsIdentity :
    (Instr.trap 0xFF#8).wellFormed = true ∧ (Instr.str .r7 .r7 0b111111#6).wellFormed = true := by decide

/-- V-ADD-11, V-NOT-5, V-JMP-2, V-JSRR-4, V-RES-2, V-TRAP-21 beside the words with other unused bits. -/
theorem witness_UnusedBitsAreIgnored :
    (getBits 0x105A#16 12 4 = 0x1#4 ∧ (0x105A#16).getLsbD 5 = false ∧
      0x105A#16 ||| 0x0018#16 = 0x1042#16 ||| 0x0018#16) ∧
    (getBits 0x505A#16 12 4 = 0x5#4 ∧ (0x505A#16).getLsbD 5 = false ∧
      0x505A#16 ||| 0x0018#16 = 0x5042#16 ||| 0x0018#16) ∧
    (getBits 0x9280#16 12 4 = 0x9#4 ∧ 0x9280#16 ||| 0x003F#16 = 0x92BF#16 ||| 0x003F#16) ∧
    (getBits 0xCEBF#16 12 4 = 0xC#4 ∧ 0xCEBF#16 ||| 0x0E3F#16 = 0xC080#16 ||| 0x0E3F#16) ∧
    (getBits 0x46FF#16 12 4 = 0x4#4 ∧ (0x46FF#16).getLsbD 11 = false ∧
      0x46FF#16 ||| 0x063F#16 = 0x40C0#16 ||| 0x063F#16) ∧
    (getBits 0x8FFF#16 12 4 = 0x8#4 ∧ 0x8FFF#16 ||| 0x0FFF#16 = 0x8000#16 ||| 0x0FFF#16) ∧
    (getBits 0xDABC#16 12 4 = 0xD#4 ∧ 0xDABC#16 ||| 0x0FFF#16 = 0xD000#16 ||| 0x0FFF#16) ∧
    (getBits 0xFF25#16 12 4 = 0xF#4 ∧ 0xFF25#16 ||| 0x0F00#16 = 0xF025#16 ||| 0x0F00#16) := by decide

theorem witness_AddRegisterWritesSum :
    getBits 0x1FDF#16 12 4 = 0x1#4 ∧ (0x1FDF#16).getLsbD 5 = false := by decide

theorem witness_AddImmediateWritesSum :
    getBits 0x1FFF#16 12 4 = 0x1#4 ∧ (0x1FFF#16).getLsbD 5 = true := by decide

theorem witness_AndRegisterWritesConjunction :
    getBits 0x5FDF#16 12 4 = 0x5#4 ∧ (0x5FDF#16).getLsbD 5 = false := by decide

theorem witness_AndImmediateWritesConjunction :
    getBits 0x5FFF#16 12 4 = 0x5#4 ∧ (0x5FFF#16).getLsbD 5 = true := by decide

/-- W3's instances, and a SR2 that is SR1. -/
theorem witness_ImmediateAndRegisterModesAgree :
    (running.setReg .r2 0xFFFD#16).reg .r2 = sext 0b11101#5 ∧
    (running.setReg .r2 0x000F#16).reg .r2 = sext 0b01111#5 ∧
    (running.setReg .r1 0xFFF0#16).reg .r1 = sext 0b10000#5 := by decide

theorem witness_NotWritesComplement : getBits 0x9FFF#16 12 4 = 0x9#4 := by decide

theorem witness_BranchJumpsWhenMaskMeetsCond :
    getBits 0x0FFF#16 12 4 = 0x0#4 ∧ getBits 0x0000#16 12 4 = 0x0#4 := by decide

theorem witness_BranchTestsOneFlagBit :
    { running with cond := 0b001#3 }.condLegal ∧ running.condLegal ∧ running.cond = 0b010#3 ∧
    { running with cond := 0b100#3 }.condLegal := by decide

theorem witness_JumpGoesToBaseRegister : getBits 0xC1C0#16 12 4 = 0xC#4 := by decide

theorem witness_JsrLinksAndJumpsRelative :
    getBits 0x4FFF#16 12 4 = 0x4#4 ∧ (0x4FFF#16).getLsbD 11 = true := by decide

/-- V-JSRR-2 and V-JSRR-4's words. -/
theorem witness_JsrrLinksAndJumpsToOldBase :
    (getBits 0x41C0#16 12 4 = 0x4#4 ∧ (0x41C0#16).getLsbD 11 = false) ∧
    getBits 0x46FF#16 12 4 = 0x4#4 ∧ (0x46FF#16).getLsbD 11 = false := by decide

theorem witness_LinkWriteLeavesCond :
    (∃ t, exec (.jsr 0b10000000000#11) running = .next t) ∧ (∃ t, exec (.jsrr .r7) running = .next t) ∧
    (isTrap .getc = true ∧ (∃ t, exec .getc running = .next t) ∧
      ∃ t, exec .getc (typed 0x80#8 running) = .next t) ∧
    (isTrap .inp = true ∧ ∃ t, exec .inp (typed 0x80#8 running) = .next t) ∧
    (Instr.trap 0x26#8).wellFormed = true ∧ isTrap (.trap 0x26#8) = true ∧
    ∃ t, exec (.trap 0x26#8) running = .next t :=
  ⟨⟨_, rfl⟩, ⟨_, rfl⟩, ⟨rfl, ⟨_, rfl⟩, _, rfl⟩, ⟨rfl, _, rfl⟩, rfl, rfl, _, rfl⟩

theorem witness_LdLoadsPcRelative : getBits 0x2300#16 12 4 = 0x2#4 := by decide

theorem witness_StStoresPcRelative : getBits 0x3FFE#16 12 4 = 0x3#4 := by decide

theorem witness_LdrLoadsBaseOffset : getBits 0x6240#16 12 4 = 0x6#4 := by decide

theorem witness_StrStoresBaseOffset : getBits 0x7260#16 12 4 = 0x7#4 := by decide

theorem witness_LdiLoadsThroughPointer : getBits 0xA200#16 12 4 = 0xA#4 := by decide

theorem witness_StiStoresThroughPointer : getBits 0xB3FF#16 12 4 = 0xB#4 := by decide

theorem witness_LeaWritesAddress : getBits 0xE200#16 12 4 = 0xE#4 := by decide

/-- The three stores, each onto the word the next step fetches. -/
theorem witness_StoreIsSeenByTheNextFetch :
    running.runState = .running ∧ storeAddress (.st .r2 0b000000000#9) running = some 0x3001#16 ∧
    storeAddress (.str .r2 .r1 0b000000#6) (running.setReg .r1 0x3001#16) = some 0x3001#16 ∧
    storeAddress (.sti .r2 0b000000000#9) (running.memWrite 0x3001#16 0x3001#16) = some 0x3001#16 := by
  decide

theorem witness_RtiAndResEndTheRun :
    getBits 0x8FFF#16 12 4 = 0x8#4 ∧ getBits 0xDFFF#16 12 4 = 0xD#4 ∧
    running.cout.take = some (.ok, running.cout) ∧ hostFails.cout.take = some (.fail, hostFails.cout) ∧
    hostSilent.cout.take = none := by decide

theorem witness_GetcReadsOneByte :
    getBits 0xFF20#16 12 4 = 0xF#4 ∧ getBits 0xFF20#16 0 8 = 0x20#8 ∧
    (typed 0x00#8 running).cin.take = some (.byte 0x00#8, ⟨[], none⟩) ∧
    (typed 0xFF#8 running).cin.take = some (.byte 0xFF#8, ⟨[], none⟩) ∧
    running.cin.take = some (.endOfInput, running.cin) ∧ hostSilent.cin.take = none := by decide

theorem witness_OutWritesLowByte :
    getBits 0xF021#16 12 4 = 0xF#4 ∧ getBits 0xF021#16 0 8 = 0x21#8 ∧
    running.cout.take = some (.ok, running.cout) ∧ hostFails.cout.take = some (.fail, hostFails.cout) ∧
    hostSilent.cout.take = none := by decide

/-- A string of two words at 0x4000 (V-TRAP-9). -/
def twoWords : State :=
  ((running.setReg .r0 0x4000#16).memWrite 0x4000#16 0x0100#16).memWrite 0x4001#16 0x0041#16

/-- A packed string of one whole word and one low byte, across 0xFFFF (V-TRAP-19). -/
def packedWords : State :=
  ((running.setReg .r0 0xFFFF#16).memWrite 0xFFFF#16 0x4241#16).memWrite 0x0000#16 0x0043#16

/-- The empty string (k = 0, V-TRAP-8) and a string of two characters (k = 2). -/
theorem witness_PutsWritesTheString :
    getBits 0xF022#16 12 4 = 0xF#4 ∧ getBits 0xF022#16 0 8 = 0x22#8 ∧
    (running.memRead (scanAddr running 0) = 0x0000#16 ∧ oks 0 running.cout = some running.cout) ∧
    (∀ j, j < 2 → twoWords.memRead (scanAddr twoWords j) ≠ 0x0000#16) ∧
    twoWords.memRead (scanAddr twoWords 2) = 0x0000#16 ∧ oks 2 twoWords.cout = some twoWords.cout := by
  decide

/-- The first character fails or waits (k = 0); the second fails (k = 1, V-TRAP-11). -/
theorem witness_PutsStopsAtAnUnacceptedCharacter :
    (∀ j, j ≤ 1 → (failsAfter 1 twoWords).memRead (scanAddr (failsAfter 1 twoWords) j) ≠ 0x0000#16) ∧
    oks 1 (failsAfter 1 twoWords).cout = some ⟨[], some .fail⟩ ∧
    (⟨[], some .fail⟩ : Answers CoutAnswer).take = some (.fail, ⟨[], some .fail⟩) ∧
    (∀ j, j ≤ 0 → { twoWords with cout := ⟨[], none⟩ }.memRead
      (scanAddr { twoWords with cout := ⟨[], none⟩ } j) ≠ 0x0000#16) ∧
    oks 0 (⟨[], none⟩ : Answers CoutAnswer) = some ⟨[], none⟩ ∧
    (⟨[], none⟩ : Answers CoutAnswer).take = none := by decide

/-- Every answer of the host that IN's clauses name, V-TRAP-12 to V-TRAP-15 among them. -/
theorem witness_InPromptsReadsEchoesStores :
    getBits 0xF023#16 12 4 = 0xF#4 ∧ getBits 0xF023#16 0 8 = 0x23#8 ∧
    ((typed 0x7A#8 running).cout.take = some (.ok, ⟨[], some .ok⟩) ∧
      (typed 0x7A#8 running).cin.take = some (.byte 0x7A#8, ⟨[], none⟩) ∧
      (⟨[], some .ok⟩ : Answers CoutAnswer).take = some (.ok, ⟨[], some .ok⟩)) ∧
    ((failsAfter 1 running).cout.take = some (.ok, ⟨[], some .fail⟩) ∧
      (⟨[], some .fail⟩ : Answers CoutAnswer).take = some (.fail, ⟨[], some .fail⟩)) ∧
    ({ running with cout := ⟨[.ok], none⟩ }.cout.take = some (.ok, ⟨[], none⟩) ∧
      (⟨[], none⟩ : Answers CoutAnswer).take = none) ∧
    running.cin.take = some (.endOfInput, running.cin) ∧ hostSilent.cin.take = none ∧
    hostFails.cout.take = some (.fail, hostFails.cout) ∧ hostSilent.cout.take = none := by decide

/-- An empty string (k = 0), and one that ends in a zero high byte (k = 1, V-TRAP-19). -/
theorem witness_PutspWritesThePackedString :
    getBits 0xF024#16 12 4 = 0xF#4 ∧ getBits 0xF024#16 0 8 = 0x24#8 ∧
    (lowByte (running.memRead (scanAddr running 0)) = 0x00#8 ∧
      oks (2 * 0) running.cout = some running.cout) ∧
    (∀ j, j < 1 → lowByte (packedWords.memRead (scanAddr packedWords j)) ≠ 0x00#8 ∧
      highByte (packedWords.memRead (scanAddr packedWords j)) ≠ 0x00#8) ∧
    lowByte (packedWords.memRead (scanAddr packedWords 1)) ≠ 0x00#8 ∧
    highByte (packedWords.memRead (scanAddr packedWords 1)) = 0x00#8 ∧
    oks (2 * 1 + 1) packedWords.cout = some packedWords.cout := by decide

/-- The low byte of the first word is not accepted (k = 0), and its high byte is not. -/
theorem witness_PutspStopsAtAnUnacceptedCharacter :
    lowByte (packedWords.memRead (scanAddr packedWords 0)) ≠ 0x00#8 ∧
    highByte (packedWords.memRead (scanAddr packedWords 0)) ≠ 0x00#8 ∧
    oks (2 * 0) (failsAfter 0 packedWords).cout = some ⟨[], some .fail⟩ ∧
    oks (2 * 0 + 1) (failsAfter 1 packedWords).cout = some ⟨[], some .fail⟩ ∧
    oks (2 * 0 + 1) (⟨[.ok], none⟩ : Answers CoutAnswer) = some ⟨[], none⟩ ∧
    (⟨[], some .fail⟩ : Answers CoutAnswer).take = some (.fail, ⟨[], some .fail⟩) ∧
    (⟨[], none⟩ : Answers CoutAnswer).take = none := by decide

theorem read_filled (v : Word) : ∀ (n lo a : Nat), lo ≤ a → a < lo + n →
    Memory.read ((List.range' lo n).map (fun b => (b, v))) a = v := by
  intro n
  induction n with
  | zero => intro lo a h1 h2; omega
  | succ n ih =>
    intro lo a h1 h2
    simp only [List.range'_succ, List.map_cons, Memory.read]
    split
    · rfl
    · exact ih (lo + 1) a (by omega) (by omega)

/-- A memory without a zero byte; the host accepts everything. -/
def filled : State := { running with mem := (List.range' 0 65536).map (fun b => (b, 0x0101#16)) }

theorem filled_memRead (a : Word) : filled.memRead a = 0x0101#16 :=
  read_filled _ _ _ _ (Nat.zero_le _) (by omega)

theorem filled_oks (n : Nat) : oks n filled.cout = some filled.cout := by
  induction n with
  | zero => rfl
  | succ n ih => exact ih

/-- V-TRAP-26's hang, for PUTS and for PUTSP: both sides of the equivalences are met, and so is the premise of the
clauses about the state reached. -/
theorem witness_ScanNeverEndsExactlyWithoutTerminator :
    (∀ a : Word, filled.memRead a ≠ 0x0000#16) ∧
    (∀ a : Word, lowByte (filled.memRead a) ≠ 0x00#8 ∧ highByte (filled.memRead a) ≠ 0x00#8) ∧
    (∀ n : Nat, (oks n filled.cout).isSome = true) ∧
    (∃ u a, exec .puts filled = .fault (.neverEnds u a)) ∧
    ∃ u a, exec .putsp filled = .fault (.neverEnds u a) := by
  have hz (a : Word) : filled.memRead a ≠ 0x0000#16 := by rw [filled_memRead]; decide
  have hb (a : Word) : lowByte (filled.memRead a) ≠ 0x00#8 ∧ highByte (filled.memRead a) ≠ 0x00#8 := by
    rw [filled_memRead]; decide
  refine ⟨hz, hb, fun n => by rw [filled_oks]; rfl, ?_, ?_⟩
  · have h := puts_run 0 (scanFuel filled) (filled.reg .r0) filled.trapEntry filled.cout
      (fun j _ => hz _) (filled_oks _)
    rw [Nat.zero_add] at h
    exact ⟨_, _, (exec_puts filled).trans h⟩
  · have h := putsp_run 0 (scanFuel filled) (filled.reg .r0) filled.trapEntry filled.cout
      (fun j _ => hb _) (filled_oks _)
    rw [Nat.zero_add] at h
    exact ⟨_, _, (exec_putsp filled).trans h⟩

theorem witness_HaltEndsTheRun :
    getBits 0xFF25#16 12 4 = 0xF#4 ∧ getBits 0xFF25#16 0 8 = 0x25#8 ∧
    running.cout.take = some (.ok, running.cout) ∧ hostFails.cout.take = some (.fail, hostFails.cout) ∧
    hostSilent.cout.take = none := by decide

/-- The vectors on both sides of the services, and the last one. -/
theorem witness_UnknownVectorReportsAndContinues :
    (getBits 0xF01F#16 12 4 = 0xF#4 ∧ getBits 0xF01F#16 0 8 < 0x20#8) ∧
    (getBits 0xF026#16 12 4 = 0xF#4 ∧ 0x25#8 < getBits 0xF026#16 0 8) ∧
    (getBits 0xF0FF#16 12 4 = 0xF#4 ∧ 0x25#8 < getBits 0xF0FF#16 0 8) ∧
    running.cout.take = some (.ok, running.cout) ∧ hostFails.cout.take = some (.fail, hostFails.cout) ∧
    hostSilent.cout.take = none := by decide

theorem witness_TrapFootprint :
    (isTrap .getc = true ∧ ∃ t, exec .getc (typed 0x41#8 running) = .next t) ∧
    (isTrap .halt = true ∧ ∃ t, exec .halt hostFails = .next t) :=
  ⟨⟨rfl, _, rfl⟩, rfl, _, rfl⟩

theorem witness_OnlyControlTransfersWritePc :
    (writesPc .res = false ∧ ∃ t, exec .res running = .next t) ∧
    (0b101#3 &&& running.cond = 0b000#3 ∧ ∃ t, exec (.br 0b101#3 0b000000101#9) running = .next t) ∧
    (writesPc (.jsrr .r7) = true ∧ ∃ t, exec (.jsrr .r7) running = .next t) :=
  ⟨⟨rfl, _, rfl⟩, ⟨by decide, _, rfl⟩, rfl, _, rfl⟩

theorem witness_OnlyStoresWriteMemory :
    (storeAddress (.lea .r0 0b000000000#9) running = none ∧
      ∃ t, exec (.lea .r0 0b000000000#9) running = .next t) ∧
    (storeAddress (.sti .r1 0b111111111#9) running = some 0x0000#16 ∧
      ∃ t, exec (.sti .r1 0b111111111#9) running = .next t) :=
  ⟨⟨by decide, _, rfl⟩, by decide, _, rfl⟩

theorem witness_EveryDestinationWriteSetsCond :
    (writeDRTarget (.ld .r7 0b100000000#9) = some .r7 ∧
      ∃ t, exec (.ld .r7 0b100000000#9) running = .next t) ∧
    (writeDRTarget .getc = some .r0 ∧ (∃ t, exec .getc (typed 0x00#8 running) = .next t) ∧
      ∃ t, exec .getc running = .next t) :=
  ⟨⟨rfl, _, rfl⟩, rfl, ⟨_, rfl⟩, _, rfl⟩

theorem witness_CondIsReadOnlyByBr :
    (writeDRTarget .rti = none ∧ ∃ t, exec .rti running = .next t) ∧
    (∀ m o, Instr.jmp .r0 ≠ .br m o) ∧ ∀ m o, Instr.puts ≠ .br m o :=
  ⟨⟨rfl, _, rfl⟩, fun _ _ h => Instr.noConfusion h, fun _ _ h => Instr.noConfusion h⟩

/-- A step that stays RUNNING, one that ends HALTED, and two that end FAULTED. -/
theorem witness_RunStateTransitions :
    running.runState = .running ∧ hostFails.runState = .running ∧
    (∃ t, exec (.not .r0 .r0) running = .next t ∧ t.runState = .running) ∧
    (∃ t, exec .halt running = .next t ∧ t.runState = .halted) ∧
    (∃ t, exec .getc running = .next t ∧ t.runState = .faulted) ∧
    (∃ t, exec .res hostFails = .next t ∧ t.runState = .faulted) :=
  ⟨rfl, rfl, ⟨_, rfl, rfl⟩, ⟨_, rfl, rfl⟩, ⟨_, rfl, rfl⟩, _, rfl, rfl⟩

theorem witness_StepKeepsInvariant :
    (start 0xFFFF#16 0x3FFE#16).Inv ∧ ∃ t, step (start 0xFFFF#16 0x3FFE#16) = .next t :=
  ⟨by decide, _, rfl⟩

theorem witness_OutputHistoryOnlyGrows :
    ∃ t, step (typed 0x7A#8 (start 0x3000#16 0xF023#16)) = .next t ∧
      t.output = [.notice .inPrompt, .char 0x7A#8] := ⟨_, rfl, rfl⟩

/-- A write that takes a cell out and one that puts it back give the same data. -/
theorem witness_MemoryReadsTheLastWrite :
    (0x3000#16 : Word) ≠ 0x3001#16 ∧ Memory.wf (running.memWrite 0xFFFF#16 0x0001#16).mem = true ∧
    Memory.wf ((running.memWrite 0xFFFF#16 0x0001#16).memWrite 0xFFFF#16 0x0000#16).mem = true ∧
    SameMem running ((running.memWrite 0xFFFF#16 0x0001#16).memWrite 0xFFFF#16 0x0000#16) :=
  ⟨by decide, by decide, by decide, fun _ => rfl⟩

theorem witness_SignExtensionIsTwosComplement :
    (1 ≤ 1 ∧ 1 ≤ 16 ∧ (0x1#1).getLsbD (1 - 1) = true) ∧
    (1 ≤ 16 ∧ 16 ≤ 16 ∧ (0x7FFF#16).getLsbD (16 - 1) = false) := by decide

theorem witness_ConditionCodeOfWord :
    (0x8000#16).toInt < 0 ∧ (0xFFFF#16).toInt < 0 ∧ 0 < (0x0001#16).toInt ∧ 0 < (0x7FFF#16).toInt := by
  decide

/-- L1 and L2. -/
theorem witness_MalformedImageIsLoadError :
    ([] : List Byte) = [] ∧ ([0x30#8, 0x00#8, 0x12#8] : List Byte).length % 2 = 1 := by decide

/-- L3's bytes, first and last word. -/
theorem witness_ImageWordsAreBigEndian :
    ([0x30#8, 0x00#8, 0x12#8, 0x20#8, 0xF0#8, 0x25#8] : List Byte).length % 2 = 0 ∧
    ([0x30#8, 0x00#8, 0x12#8, 0x20#8, 0xF0#8, 0x25#8] : List Byte)[2 * 0]? = some 0x30#8 ∧
    ([0x30#8, 0x00#8, 0x12#8, 0x20#8, 0xF0#8, 0x25#8] : List Byte)[2 * 2 + 1]? = some 0x25#8 := by decide

/-- L5 (no word after the origin) and L6 (the last word of memory). -/
theorem witness_HeaderImageLoadsAtOrigin :
    imageWords [0x40#8, 0x00#8] = some [0x4000#16] ∧ (0x4000#16).toNat + 0 ≤ 65536 ∧
    imageWords [0xFF#8, 0xFF#8, 0x12#8, 0x34#8] = some [0xFFFF#16, 0x1234#16] ∧
    (0xFFFF#16).toNat + 1 ≤ 65536 ∧ (fun _ : Word => true) 0xFFFF#16 = true := by decide

theorem imageWords_zeros : ∀ n : Nat,
    imageWords (List.replicate (2 * n) 0x00#8) = some (List.replicate n 0x0000#16) := by
  intro n
  induction n with
  | zero => rfl
  | succ n ih =>
    rw [show 2 * (n + 1) = 2 * n + 1 + 1 by omega]
    simp only [List.replicate_succ, imageWords, ih, Option.map_some]
    rfl

/-- L4's bytes, an image of one word, and L8: an image of exactly 0xD000 words. -/
theorem witness_HeaderlessImageLoadsAt3000 :
    (imageWords [0x30#8, 0x00#8, 0x12#8, 0x20#8, 0xF0#8, 0x25#8] = some [0x3000#16, 0x1220#16, 0xF025#16] ∧
      2 + 1 ≤ 0xD000) ∧
    (imageWords [0x40#8, 0x00#8] = some [0x4000#16] ∧ (fun _ : Word => false) 0x4000#16 = false ∧
      0 + 1 ≤ 0xD000) ∧
    ∃ (image : List Byte) (w0 : Word) (ws : List Word), imageWords image = some (w0 :: ws) ∧
      (fun _ : Word => false) w0 = false ∧ ws.length + 1 = 0xD000 :=
  ⟨by decide, by decide, List.replicate (2 * (0xCFFF + 1)) 0x00#8, 0x0000#16, List.replicate 0xCFFF 0x0000#16,
    (imageWords_zeros (0xCFFF + 1)).trans (by rw [List.replicate_succ]), rfl, by rw [List.length_replicate]⟩

/-- L7, and L9 with words of zeros. -/
theorem witness_OverlongImageIsLoadError :
    (imageWords [0xFF#8, 0xFF#8, 0x12#8, 0x34#8, 0x56#8, 0x78#8] = some [0xFFFF#16, 0x1234#16, 0x5678#16] ∧
      65536 < (0xFFFF#16).toNat + 2) ∧
    ∃ (image : List Byte) (w0 : Word) (ws : List Word), imageWords image = some (w0 :: ws) ∧
      (fun _ : Word => false) w0 = false ∧ 0xD000 < ws.length + 1 :=
  ⟨by decide, List.replicate (2 * (0xD000 + 1)) 0x00#8, 0x0000#16, List.replicate 0xD000 0x0000#16,
    (imageWords_zeros (0xD000 + 1)).trans (by rw [List.replicate_succ]), rfl, by
    rw [List.length_replicate]; omega⟩

/-- Two states that share only the host's answers. -/
theorem witness_BootMeetsInvariant :
    (start 0x3000#16 0xF025#16).cin = State.reset.cin ∧ (start 0x3000#16 0xF025#16).cout = State.reset.cout ∧
    start 0x3000#16 0xF025#16 ≠ State.reset := by decide

end Sys2Proof.Tests
end

section
/-! The words and the memory of spec/00_scope.md (O51 to O53): a canonical memory is determined by what it reads
(R51, log entry 1), sign extension bit by bit (R10), and the condition code by the word's sign (R15). -/

namespace Sys2Proof.Machine

/-- A canonical memory lists no cell below its lower bound, and an unlisted word reads 0x0000 (R51). -/
theorem Memory.read_eq_zero_of_lt {lo a : Nat} {m : Memory} (hm : m.wfFrom lo = true) (ha : a < lo) :
    m.read a = 0x0000#16 := by
  induction m generalizing lo with
  | nil => rfl
  | cons c rest ih =>
    obtain ⟨b, w⟩ := c
    obtain ⟨hlo, -, -, hrest⟩ := Memory.wfFrom_cons.mp hm
    rw [Memory.read, if_neg (by omega), ih hrest (by omega)]

/-- The last cell of a canonical memory lies below MEMSIZE. -/
theorem Memory.read_eq_zero_of_memSize_le {lo a : Nat} {m : Memory} (hm : m.wfFrom lo = true)
    (ha : Config.memSize ≤ a) : m.read a = 0x0000#16 := by
  induction m generalizing lo with
  | nil => rfl
  | cons c rest ih =>
    obtain ⟨b, w⟩ := c
    obtain ⟨-, hb, -, hrest⟩ := Memory.wfFrom_cons.mp hm
    rw [Memory.read, if_neg (by simp only [Config.memSize] at ha; omega), ih hrest]

/-- A canonical memory reads a word other than 0x0000 at its first cell, so another that reads the same there
begins no later. -/
theorem Memory.head_le_of_read_eq {lo a b : Nat} {v w : Word} {r r' : Memory}
    (hm : Memory.wfFrom lo ((a, v) :: r) = true) (hm' : Memory.wfFrom lo ((b, w) :: r') = true)
    (h : Memory.read ((a, v) :: r) a = Memory.read ((b, w) :: r') a) : b ≤ a := by
  obtain ⟨-, -, hv, -⟩ := Memory.wfFrom_cons.mp hm
  obtain ⟨-, -, -, hr'⟩ := Memory.wfFrom_cons.mp hm'
  by_contra hlt
  rw [Memory.read, if_pos rfl, Memory.read, if_neg (by omega), Memory.read_eq_zero_of_lt hr' (by omega)] at h
  exact hv h

/-- A cell in front of a canonical memory hides no word of it. -/
theorem Memory.read_tail_congr {a : Nat} {v : Word} {r r' : Memory} (hr : r.wfFrom (a + 1) = true)
    (hr' : r'.wfFrom (a + 1) = true)
    (h : ∀ x, Memory.read ((a, v) :: r) x = Memory.read ((a, v) :: r') x) (x : Nat) : r.read x = r'.read x := by
  by_cases hx : a = x
  · rw [Memory.read_eq_zero_of_lt hr (by omega), Memory.read_eq_zero_of_lt hr' (by omega)]
  · simpa [Memory.read, hx] using h x

/-- Canonical memories that read alike at every address are the same data. -/
theorem Memory.ext_of_wfFrom {lo : Nat} {m m' : Memory} (hm : m.wfFrom lo = true) (hm' : m'.wfFrom lo = true)
    (h : ∀ x, m.read x = m'.read x) : m = m' := by
  induction m generalizing lo m' with
  | nil =>
    cases m' with
    | nil => rfl
    | cons c' r' =>
      obtain ⟨b, w⟩ := c'
      obtain ⟨-, -, hw, -⟩ := Memory.wfFrom_cons.mp hm'
      exact absurd (by simpa [Memory.read] using (h b).symm) hw
  | cons c r ih =>
    obtain ⟨a, v⟩ := c
    obtain ⟨-, -, hv, hr⟩ := Memory.wfFrom_cons.mp hm
    cases m' with
    | nil => exact absurd (by simpa [Memory.read] using h a) hv
    | cons c' r' =>
      obtain ⟨b, w⟩ := c'
      obtain ⟨-, -, -, hr'⟩ := Memory.wfFrom_cons.mp hm'
      obtain rfl : a = b :=
        le_antisymm (Memory.head_le_of_read_eq hm' hm (h b).symm) (Memory.head_le_of_read_eq hm hm' (h a))
      obtain rfl : v = w := by simpa [Memory.read] using h a
      rw [ih hr hr' (Memory.read_tail_congr hr hr' h)]

/-- A state's memory, when canonical, is determined by its words: the addresses past the last word read 0x0000
in both. -/
theorem State.mem_eq_of_sameMem {s t : State} (hs : Memory.wf s.mem = true) (ht : Memory.wf t.mem = true)
    (h : SameMem s t) : t.mem = s.mem := by
  refine Memory.ext_of_wfFrom ht hs fun x => ?_
  by_cases hx : x < Config.memSize
  · simpa [State.memRead, Nat.mod_eq_of_lt hx] using h (BitVec.ofNat 16 x)
  · rw [Memory.read_eq_zero_of_memSize_le ht (by omega), Memory.read_eq_zero_of_memSize_le hs (by omega)]

/-- Settles O51: the read-after-write law of the cell list, and extensionality of the canonical form. The
canonical form is the model's own (log entry 1). -/
theorem memoryReadsTheLastWrite : Obligations.MemoryReadsTheLastWrite := by
  unfold Obligations.MemoryReadsTheLastWrite
  refine ⟨fun s a b v => ⟨?_, fun hb => ?_, State.wf_memWrite a v⟩, fun s t => State.mem_eq_of_sameMem⟩
  · rw [State.memRead_memWrite, if_pos rfl]
  · rw [State.memRead_memWrite, if_neg hb]

/-- A bit of a sign-extended field is the field's own bit below N and its top bit from N up (R10). -/
theorem getLsbD_sext {n : Nat} (v : BitVec n) {i : Nat} (hi : i < 16) :
    (sext v).getLsbD i = if i < n then v.getLsbD i else v.msb := by
  rw [sext, BitVec.getLsbD_signExtend, decide_eq_true hi, Bool.true_and]

/-- The mask `0xFFFF << N` holds the bits from N up. -/
theorem getLsbD_ones_shiftLeft (n : Nat) {i : Nat} (hi : i < 16) :
    (0xFFFF#16 <<< n).getLsbD i = decide (n ≤ i) := by
  rw [show 0xFFFF#16 = BitVec.allOnes 16 from rfl, BitVec.getLsbD_shiftLeft, BitVec.getLsbD_allOnes]
  simp [hi, show i - n < 16 by omega, ← decide_not]

/-- R10's formula; for a field of more than 16 bits the mask is 0 and both sides are its low word. -/
theorem sext_eq_ite {n : Nat} (v : BitVec n) :
    sext v = if v.msb then v.setWidth 16 ||| (0xFFFF#16 <<< n) else v.setWidth 16 := by
  cases hmsb : v.msb with
  | false => exact BitVec.signExtend_eq_setWidth_of_msb_false hmsb
  | true =>
    refine BitVec.eq_of_getLsbD_eq fun i hi => ?_
    rw [if_pos rfl, getLsbD_sext v hi, BitVec.getLsbD_or, getLsbD_ones_shiftLeft n hi, BitVec.getLsbD_setWidth,
      decide_eq_true hi, Bool.true_and]
    by_cases hin : i < n
    · rw [if_pos hin, decide_eq_false (Nat.not_le.mpr hin), Bool.or_false]
    · rw [if_neg hin, hmsb, decide_eq_true (Nat.le_of_not_lt hin), Bool.or_true]

/-- Sign extension keeps the two's-complement value of a field that fits in a word. -/
theorem toInt_sext {n : Nat} (v : BitVec n) (hn : n ≤ 16) : (sext v).toInt = v.toInt :=
  BitVec.toInt_signExtend_of_le hn

/-- Settles O52, bit by bit for the formula; the signed value is the library's. -/
theorem signExtensionIsTwosComplement : Obligations.SignExtensionIsTwosComplement := by
  unfold Obligations.SignExtensionIsTwosComplement
  intro n v _ hn
  rw [← BitVec.msb_eq_getLsbD_last]
  exact ⟨sext_eq_ite v, toInt_sext v hn⟩

theorem cc_zero : cc 0x0000#16 = condZ := rfl

theorem cc_of_toInt_neg {v : Word} (h : v.toInt < 0) : cc v = condN := by
  have hv : v ≠ 0x0000#16 := by rintro rfl; simp at h
  rw [cc, if_neg hv, if_pos (by rw [BitVec.msb_eq_toInt, decide_eq_true h])]

theorem cc_of_toInt_pos {v : Word} (h : 0 < v.toInt) : cc v = condP := by
  have hv : v ≠ 0x0000#16 := by rintro rfl; simp at h
  rw [cc, if_neg hv, if_neg (by simpa [BitVec.msb_eq_toInt] using h.le)]

/-- Settles O53: the three cases of the word's sign. -/
theorem conditionCodeOfWord : Obligations.ConditionCodeOfWord := by
  unfold Obligations.ConditionCodeOfWord
  exact fun v => ⟨fun h => h ▸ cc_zero, cc_of_toInt_neg, cc_of_toInt_pos⟩

end Sys2Proof.Machine
end

section
/-! What an instruction that completes can have done, said once for every instruction: the console traffic of a
step as one update, and an inversion lemma for `exec` (spec/41_operate.md to spec/45_trap.md). -/

namespace Sys2Proof.Machine

/-! ### The console traffic of one step -/

/-- The state after console transactions: `es` entered the output history, and `p` and `q` are the host's answers
still to come (R203, R204). -/
def State.afterConsole (s : State) (es : List Event) (p : Answers CinAnswer) (q : Answers CoutAnswer) : State :=
  { s with output := s.output ++ es, cin := p, cout := q }

section Updates

variable (s : State) (es : List Event) (p : Answers CinAnswer) (q : Answers CoutAnswer)

@[simp] theorem State.afterConsole_regs : (s.afterConsole es p q).regs = s.regs := rfl
@[simp] theorem State.afterConsole_pc : (s.afterConsole es p q).pc = s.pc := rfl
@[simp] theorem State.afterConsole_cond : (s.afterConsole es p q).cond = s.cond := rfl
@[simp] theorem State.afterConsole_mem : (s.afterConsole es p q).mem = s.mem := rfl
@[simp] theorem State.afterConsole_runState : (s.afterConsole es p q).runState = s.runState := rfl
@[simp] theorem State.afterConsole_haltCause : (s.afterConsole es p q).haltCause = s.haltCause := rfl
@[simp] theorem State.afterConsole_faultCause : (s.afterConsole es p q).faultCause = s.faultCause := rfl
@[simp] theorem State.afterConsole_output : (s.afterConsole es p q).output = s.output ++ es := rfl
@[simp] theorem State.afterConsole_cin : (s.afterConsole es p q).cin = p := rfl
@[simp] theorem State.afterConsole_cout : (s.afterConsole es p q).cout = q := rfl
@[simp] theorem State.reg_afterConsole (r : Reg) : (s.afterConsole es p q).reg r = s.reg r := rfl
@[simp] theorem State.memRead_afterConsole (a : Word) : (s.afterConsole es p q).memRead a = s.memRead a := rfl

@[simp] theorem State.afterConsole_afterConsole (es' : List Event) (p' : Answers CinAnswer)
    (q' : Answers CoutAnswer) :
    (s.afterConsole es p q).afterConsole es' p' q' = s.afterConsole (es ++ es') p' q' := by
  simp [State.afterConsole, List.append_assoc]

theorem State.afterConsole_nil : s.afterConsole [] p q = { s with cin := p, cout := q } := by
  simp [State.afterConsole]

end Updates

/-- An output event that is answered either goes on with the event written or ends the run FAULTED (R203). -/
theorem emit_completes {e : Event} {s t : State} {k : State → Result} (h : emit e s k = .next t) :
    (∃ q, k (s.afterConsole [e] s.cin q) = .next t) ∨
    (∃ q, t = (s.afterConsole [] s.cin q).raiseFault .outputFail) := by
  obtain ⟨q, -, hk⟩ | ⟨q, -, rfl⟩ := emit_next h
  · exact .inl ⟨q, hk⟩
  · exact .inr ⟨q, by rw [State.afterConsole_nil]⟩

/-- A console read that is answered either goes on with a byte or ends the run FAULTED (R204). -/
theorem consoleRead_completes {s t : State} {k : Byte → State → Result} (h : consoleRead s k = .next t) :
    (∃ b p, k b (s.afterConsole [] p s.cout) = .next t) ∨
    (∃ p, t = (s.afterConsole [] p s.cout).raiseFault .inputEnd) := by
  obtain ⟨b, p, -, hk⟩ | ⟨p, -, rfl⟩ := consoleRead_next h
  · exact .inl ⟨b, p, by rwa [State.afterConsole_nil]⟩
  · exact .inr ⟨p, by rw [State.afterConsole_nil]⟩

/-- What a scan can have done where it ends: characters written, and the run FAULTED if the host failed one
(R203, R208, R212). -/
def Emitted (s t : State) : Prop :=
  ∃ es q, t = s.afterConsole es s.cin q ∨ t = (s.afterConsole es s.cin q).raiseFault .outputFail

theorem Emitted.refl (s : State) : Emitted s s := ⟨[], s.cout, .inl (by rw [State.afterConsole_nil])⟩

theorem Emitted.event {s u : State} (h : Emitted s u) (e : Event) (q : Answers CoutAnswer) :
    Emitted s { u with output := u.output ++ [e], cout := q } := by
  obtain ⟨es, q', rfl | rfl⟩ := h
  · exact ⟨es ++ [e], q, .inl (s.afterConsole_afterConsole es s.cin q' [e] s.cin q)⟩
  · exact ⟨es ++ [e], q, .inr (congrArg (State.raiseFault · .outputFail)
      (s.afterConsole_afterConsole es s.cin q' [e] s.cin q))⟩

theorem Emitted.fail {s u : State} (h : Emitted s u) (q : Answers CoutAnswer) :
    Emitted s (State.raiseFault { u with cout := q } .outputFail) := by
  obtain ⟨es, q', rfl | rfl⟩ := h <;> exact ⟨es, q, .inr rfl⟩

theorem putsFrom_emitted {n : Nat} {a : Word} {s t : State} (h : putsFrom n a s = .next t) : Emitted s t :=
  putsFrom_rel (fun _ e q hu => hu.event e q) (fun _ q hu => hu.fail q) n a s t (.refl s) h

theorem putspFrom_emitted {n : Nat} {a : Word} {s t : State} (h : putspFrom n a s = .next t) : Emitted s t :=
  putspFrom_rel (fun _ e q hu => hu.event e q) (fun _ q hu => hu.fail q) n a s t (.refl s) h

/-! ### A trap term with a service's vector is that service's term (log entry 8) -/

/-- The vector field of a word that holds only a vector. -/
theorem getBits_zext8 (vec : Byte) : getBits (zext8 vec) 0 8 = vec := by
  refine BitVec.eq_of_getLsbD_eq fun i hi => ?_
  rw [getBits_getLsbD _ _ _ _ hi, zext8, BitVec.getLsbD_setWidth]
  simp [show i < 16 by omega]

/-- Any TRAP term runs what the decoder reads its vector as. -/
theorem exec_trap_eq_exec_decodeTrap (vec : Byte) (s : State) :
    exec (.trap vec) s = exec (decodeTrap (zext8 vec)) s := by
  unfold decodeTrap
  rw [getBits_zext8]
  dsimp only
  split_ifs <;> (subst_vars; rfl)

/-- The decoder's trap terms are well-formed: it reads a service's vector as the service. -/
theorem wellFormed_decodeTrap (ir : Word) : (decodeTrap ir).wellFormed = true := by
  unfold decodeTrap
  dsimp only
  split_ifs <;> try rfl
  simp only [Instr.wellFormed, isServiceVector, Bool.not_eq_true', decide_eq_false_iff_not]
  bv_omega

theorem isTrap_decodeTrap (ir : Word) : isTrap (decodeTrap ir) = true := by
  unfold decodeTrap
  dsimp only
  split_ifs <;> rfl

/-! ### The inversion lemma -/

/-- What a well-formed instruction that completes has done, one constructor per shape of its effect: every
register, flag, PC and memory write that it can make, and where its run can end. -/
inductive Completed (i : Instr) (s : State) : State → Prop
  /-- The operate instructions, the loads and LEA (R23). -/
  | wroteDR {d : Reg} {v : Word} (hd : writeDRTarget i = some d) (hi : isTrap i = false) :
      Completed i s (s.writeDR d v)
  /-- ST, STR and STI (R167, R169, R171). -/
  | stored {ea v : Word} (hea : storeAddress i s = some ea) : Completed i s (s.memWrite ea v)
  /-- BR not taken (R140). -/
  | fellThrough {m : BitVec 3} {off : BitVec 9} (hi : i = .br m off) (hm : m &&& s.cond = 0b000#3) :
      Completed i s s
  /-- BR taken (R140). -/
  | branched {m : BitVec 3} {off : BitVec 9} (hi : i = .br m off) (hm : m &&& s.cond ≠ 0b000#3) :
      Completed i s (s.writePc (eaPcRel s off))
  /-- JMP (R142). -/
  | jumped {b : Reg} (hi : i = .jmp b) : Completed i s (s.writePc (s.reg b))
  /-- JSR and JSRR (R144, R145). -/
  | called {a : Word} (hi : (∃ off, i = .jsr off) ∨ ∃ b, i = .jsrr b) : Completed i s (s.linkPc.writePc a)
  /-- A TRAP that only writes to the console: UNKNOWN, OUT, PUTS and PUTSP (R207, R208, R212, R214). -/
  | emitted {es : List Event} {q : Answers CoutAnswer} (hi : isTrap i = true) (hd : writeDRTarget i = none)
      (hh : i ≠ .halt) : Completed i s (s.trapEntry.afterConsole es s.cin q)
  /-- GETC and IN, the byte stored (R206, R211). -/
  | byteStored {b : Byte} {es : List Event} {p : Answers CinAnswer} {q : Answers CoutAnswer}
      (hi : i = .getc ∧ es = [] ∧ q = s.cout ∨ i = .inp) :
      Completed i s ((s.trapEntry.afterConsole es p q).writeDR .r0 (zext8 b))
  /-- HALT (R213). -/
  | halted {es : List Event} {q : Answers CoutAnswer} (hi : i = .halt) :
      Completed i s ((s.trapEntry.afterConsole es s.cin q).halt .trapHalt)
  /-- RTI and RES (R190, R191). -/
  | reserved {c : HaltCause} {es : List Event} {q : Answers CoutAnswer}
      (hi : i = .rti ∧ c = .opRti ∨ i = .res ∧ c = .opRes) :
      Completed i s ((s.afterConsole es s.cin q).halt c)
  /-- RTI and RES, the notice failed (R203). -/
  | reservedFailed {q : Answers CoutAnswer} (hi : i = .rti ∨ i = .res) :
      Completed i s ((s.afterConsole [] s.cin q).raiseFault .outputFail)
  /-- A TRAP whose output event failed (R203). -/
  | outputFailed {es : List Event} {p : Answers CinAnswer} {q : Answers CoutAnswer} (hi : isTrap i = true)
      (hg : i ≠ .getc) (hp : p = s.cin ∨ i = .inp) :
      Completed i s ((s.trapEntry.afterConsole es p q).raiseFault .outputFail)
  /-- GETC and IN at the end of input (R206, R211). -/
  | inputEnded {es : List Event} {p : Answers CinAnswer} {q : Answers CoutAnswer}
      (hi : i = .getc ∧ es = [] ∧ q = s.cout ∨ i = .inp) :
      Completed i s ((s.trapEntry.afterConsole es p q).raiseFault .inputEnd)

/-- A scan's end is a completion of its TRAP. -/
theorem Emitted.completed {i : Instr} {s t : State} (h : Emitted s.trapEntry t) (hi : isTrap i = true)
    (hd : writeDRTarget i = none) (hh : i ≠ .halt) : Completed i s t := by
  have hg : i ≠ .getc := by rintro rfl; cases hd
  obtain ⟨es, q, rfl | rfl⟩ := h
  · exact .emitted hi hd hh
  · exact .outputFailed hi hg (.inl rfl)

/-- So is the answer to the one event of UNKNOWN or OUT. -/
theorem completed_of_emit {i : Instr} {e : Event} {s t : State} (h : emit e s.trapEntry .next = .next t)
    (hi : isTrap i = true) (hd : writeDRTarget i = none) (hh : i ≠ .halt) : Completed i s t := by
  obtain ⟨q, hk⟩ | ⟨q, rfl⟩ := emit_completes h
  · cases hk; exact Emitted.completed ⟨_, _, .inl rfl⟩ hi hd hh
  · exact Emitted.completed ⟨_, _, .inr rfl⟩ hi hd hh

/-- RTI and RES: the notice, then the end of the run (R190, R191). -/
theorem completed_of_reserved {i : Instr} {n : Notice} {c : HaltCause} {s t : State}
    (h : emit (.notice n) s (fun u => .next (u.halt c)) = .next t)
    (hi : i = .rti ∧ c = .opRti ∨ i = .res ∧ c = .opRes) : Completed i s t := by
  obtain ⟨q, hk⟩ | ⟨q, rfl⟩ := emit_completes h
  · cases hk; exact .reserved hi
  · exact .reservedFailed (hi.imp And.left And.left)

theorem completed_of_halt {s t : State} (h : exec .halt s = .next t) : Completed .halt s t := by
  rw [exec_halt] at h
  obtain ⟨q, hk⟩ | ⟨q, rfl⟩ := emit_completes h
  · cases hk; exact .halted rfl
  · exact .outputFailed rfl (by decide) (.inl rfl)

theorem completed_of_getc {s t : State} (h : exec .getc s = .next t) : Completed .getc s t := by
  rw [exec_getc] at h
  obtain ⟨b, p, hk⟩ | ⟨p, rfl⟩ := consoleRead_completes h
  · cases hk; exact .byteStored (.inl ⟨rfl, rfl, rfl⟩)
  · exact .inputEnded (.inl ⟨rfl, rfl, rfl⟩)

/-- IN: its prompt, its read and its echo, each of which can end the run (R211). -/
theorem completed_of_inp {s t : State} (h : exec .inp s = .next t) : Completed .inp s t := by
  rw [exec_inp] at h
  obtain ⟨q, hprompt⟩ | ⟨q, rfl⟩ := emit_completes h
  · obtain ⟨b, p, hread⟩ | ⟨p, rfl⟩ := consoleRead_completes hprompt
    · obtain ⟨q', hk⟩ | ⟨q', rfl⟩ := emit_completes hread
      · simp only [State.afterConsole_afterConsole] at hk
        cases hk; exact .byteStored (.inr rfl)
      · simp only [State.afterConsole_afterConsole]
        exact .outputFailed rfl (by decide) (.inr rfl)
    · rw [State.afterConsole_afterConsole]
      exact .inputEnded (.inr rfl)
  · exact .outputFailed rfl (by decide) (.inl rfl)

theorem completed_of_br {m : BitVec 3} {off : BitVec 9} {s t : State} (h : exec (.br m off) s = .next t) :
    Completed (.br m off) s t := by
  rw [exec_br] at h
  by_cases hm : m &&& s.cond = 0b000#3
  · rw [branchTaken, if_neg (by simp [hm])] at h
    cases h; exact .fellThrough rfl hm
  · rw [branchTaken, if_pos (by simp [hm])] at h
    cases h; exact .branched rfl hm

/-- Everything a well-formed instruction can do on its way to a next state. -/
theorem completed_of_wellFormed {i : Instr} {s t : State} (hw : i.wellFormed = true) (h : exec i s = .next t) :
    Completed i s t := by
  cases i with
  | addReg | addImm | andReg | andImm | not | ld | ldr | ldi | lea => cases h; exact .wroteDR rfl rfl
  | st | str | sti => cases h; exact .stored rfl
  | br => exact completed_of_br h
  | jmp => cases h; exact .jumped rfl
  | jsr off => cases h; exact .called (.inl ⟨off, rfl⟩)
  | jsrr b => cases h; exact .called (.inr ⟨b, rfl⟩)
  | rti => exact completed_of_reserved h (.inl ⟨rfl, rfl⟩)
  | res => exact completed_of_reserved h (.inr ⟨rfl, rfl⟩)
  | trap vec => exact completed_of_emit ((exec_trap s hw).symm.trans h) rfl rfl nofun
  | out => exact completed_of_emit h rfl rfl nofun
  | puts => exact (putsFrom_emitted h).completed rfl rfl nofun
  | putsp => exact (putspFrom_emitted h).completed rfl rfl nofun
  | getc => exact completed_of_getc h
  | inp => exact completed_of_inp h
  | halt => exact completed_of_halt h

/-- Everything any instruction can do on its way to a next state: a TRAP term with a service's vector does what
that service does. -/
theorem exec_completes {i : Instr} {s t : State} (h : exec i s = .next t) :
    ∃ j, Completed j s t ∧ (j = i ∨ isTrap i = true ∧ isTrap j = true) := by
  cases i with
  | trap vec =>
    rw [exec_trap_eq_exec_decodeTrap] at h
    exact ⟨_, completed_of_wellFormed (wellFormed_decodeTrap _) h, .inr ⟨rfl, isTrap_decodeTrap _⟩⟩
  | _ => exact ⟨_, completed_of_wellFormed rfl h, .inl rfl⟩

end Sys2Proof.Machine
end

section
/-! The registers, the PC, COND and the output history over every instruction (spec/10_state.md R23 to R30,
R40), each read off the inversion lemma. -/

namespace Sys2Proof.Machine

/-! ### Which instructions write DR, by their other effects -/

theorem writeDRTarget_eq_none_of_storeAddress {i : Instr} {s : State} {ea : Word}
    (h : storeAddress i s = some ea) : writeDRTarget i = none := by
  cases i with
  | st | str | sti => rfl
  | _ => cases h

theorem writeDRTarget_eq_none_of_writesPc {i : Instr} (h : writesPc i = true) : writeDRTarget i = none := by
  cases i with
  | br | jmp | jsr | jsrr => rfl
  | _ => cases h

/-- The only TRAPs that write DR are GETC and IN, and that DR is R0 (R206, R211). -/
theorem writeDRTarget_of_isTrap {i : Instr} {d : Reg} (hi : isTrap i = true) (h : writeDRTarget i = some d) :
    d = .r0 := by
  cases i with
  | getc | inp => exact (Option.some.inj h).symm
  | trap | out | puts | putsp | halt => cases h
  | _ => cases hi

theorem writeDRTarget_eq_none_of_isTrap {i : Instr} (hi : isTrap i = true) (hg : i ≠ .getc) (hn : i ≠ .inp) :
    writeDRTarget i = none := by
  cases i with
  | getc => exact absurd rfl hg
  | inp => exact absurd rfl hn
  | trap | out | puts | putsp | halt => rfl
  | _ => cases hi

theorem storeAddress_eq_none_of_isTrap {i : Instr} (s : State) (hi : isTrap i = true) :
    storeAddress i s = none := by
  cases i with
  | trap | getc | out | puts | inp | putsp | halt => rfl
  | _ => cases hi

theorem writesPc_eq_false_of_isTrap {i : Instr} (hi : isTrap i = true) : writesPc i = false := by
  cases i with
  | trap | getc | out | puts | inp | putsp | halt => rfl
  | _ => cases hi

/-- Of all terms only a TRAP's own can be ill-formed (log entry 8). -/
theorem wellFormed_of_ne_trap {i : Instr} (h : ∀ vec, i ≠ .trap vec) : i.wellFormed = true := by
  cases i with
  | trap vec => exact absurd rfl (h vec)
  | _ => rfl

/-- `cc` in the words of R15, bit 15 for the sign. -/
theorem cc_eq_ite (v : Word) :
    cc v = if v = 0x0000#16 then 0b010#3 else if v.getLsbD 15 then 0b100#3 else 0b001#3 := by
  rw [cc, BitVec.msb_eq_getLsbD_last]; rfl

/-! ### COND -/

/-- Without a DR, COND stays (R30). -/
theorem Completed.cond_eq {i : Instr} {s t : State} (h : Completed i s t) (hd : writeDRTarget i = none) :
    t.cond = s.cond := by
  cases h with
  | wroteDR hd' => rw [hd] at hd'; cases hd'
  | byteStored hi => obtain ⟨rfl, -⟩ | rfl := hi <;> cases hd
  | _ => rfl

/-- With a DR, COND is the flag of the value DR then holds, or the run ended before the write (R23). -/
theorem Completed.cond_eq_cc {i : Instr} {s t : State} {d : Reg} (h : Completed i s t)
    (hd : writeDRTarget i = some d) :
    t.cond = cc (t.reg d) ∨ t.runState = .faulted ∧ t.cond = s.cond ∧ t.reg d = s.reg d := by
  cases h with
  | wroteDR hd' =>
    obtain rfl : _ = d := Option.some.inj (hd'.symm.trans hd)
    exact .inl (by rw [State.reg_writeDR, if_pos rfl, State.writeDR_cond])
  | byteStored hi =>
    obtain rfl : Reg.r0 = d := by obtain ⟨rfl, -⟩ | rfl := hi <;> exact Option.some.inj hd
    exact .inl (by rw [State.reg_writeDR, if_pos rfl, State.writeDR_cond])
  | outputFailed hi => rw [writeDRTarget_of_isTrap hi hd]; exact .inr ⟨rfl, rfl, rfl⟩
  | inputEnded hi =>
    obtain rfl : Reg.r0 = d := by obtain ⟨rfl, -⟩ | rfl := hi <;> exact Option.some.inj hd
    exact .inr ⟨rfl, rfl, rfl⟩
  | stored hea => rw [writeDRTarget_eq_none_of_storeAddress hea] at hd; cases hd
  | emitted _ hd' => rw [hd'] at hd; cases hd
  | fellThrough hi | branched hi | jumped hi | halted hi => subst hi; cases hd
  | called hi => obtain ⟨_, rfl⟩ | ⟨_, rfl⟩ := hi <;> cases hd
  | reserved hi => obtain ⟨rfl, -⟩ | ⟨rfl, -⟩ := hi <;> cases hd
  | reservedFailed hi => obtain rfl | rfl := hi <;> cases hd

/-- Settles O45, by the shape of the effect; a term that writes DR is well-formed. -/
theorem everyDestinationWriteSetsCond : Obligations.EveryDestinationWriteSetsCond := by
  unfold Obligations.EveryDestinationWriteSetsCond
  intro i s t d hd h
  have hw : i.wellFormed = true := wellFormed_of_ne_trap (by rintro _ rfl; cases hd)
  rw [← cc_eq_ite]
  exact (completed_of_wellFormed hw h).cond_eq_cc hd

/-! ### The link write -/

/-- Every TRAP leaves PC' in R7 (R200). -/
theorem Completed.reg_r7_of_isTrap {i : Instr} {s t : State} (h : Completed i s t) (hi : isTrap i = true) :
    t.reg .r7 = s.pc := by
  cases h with
  | emitted | byteStored | halted | outputFailed | inputEnded => rfl
  | wroteDR _ ht => exact absurd (hi.symm.trans ht) (by decide)
  | stored hea => rw [storeAddress_eq_none_of_isTrap s hi] at hea; cases hea
  | fellThrough hi' | branched hi' | jumped hi' => subst hi'; cases hi
  | called hi' => obtain ⟨_, rfl⟩ | ⟨_, rfl⟩ := hi' <;> cases hi
  | reserved hi' => obtain ⟨rfl, -⟩ | ⟨rfl, -⟩ := hi' <;> cases hi
  | reservedFailed hi' => obtain rfl | rfl := hi' <;> cases hi

/-- Settles O21: R7 by the shape of the effect; COND as for any instruction without a DR, and for GETC and IN as
for any with one. -/
theorem linkWriteLeavesCond : Obligations.LinkWriteLeavesCond := by
  unfold Obligations.LinkWriteLeavesCond
  intro i s t hw hi h
  have hc : Completed i s t := completed_of_wellFormed hw h
  refine ⟨?_, fun hg hn => hc.cond_eq ?_, fun hgn => ?_⟩
  · obtain ⟨_, rfl⟩ | ⟨_, rfl⟩ | hi := hi
    · cases h; rfl
    · cases h; rfl
    · exact hc.reg_r7_of_isTrap hi
  · obtain ⟨_, rfl⟩ | ⟨_, rfl⟩ | hi := hi
    · rfl
    · rfl
    · exact writeDRTarget_eq_none_of_isTrap hi hg hn
  · have hd : writeDRTarget i = some .r0 := by obtain rfl | rfl := hgn <;> rfl
    obtain hcc | ⟨-, hcond, hr0⟩ := hc.cond_eq_cc hd
    · exact .inr hcc
    · exact .inl ⟨hcond, hr0⟩

/-! ### The PC -/

/-- After the fetch only the control transfers write the PC (R27). -/
theorem Completed.pc_eq {i : Instr} {s t : State} (h : Completed i s t) (hi : writesPc i = false) :
    t.pc = s.pc := by
  cases h with
  | branched hi' | jumped hi' => subst hi'; cases hi
  | called hi' => obtain ⟨_, rfl⟩ | ⟨_, rfl⟩ := hi' <;> cases hi
  | _ => rfl

/-- Settles O43: the PC by the shape of the effect, COND because a control transfer has no DR. -/
theorem onlyControlTransfersWritePc : Obligations.OnlyControlTransfersWritePc := by
  unfold Obligations.OnlyControlTransfersWritePc
  intro i s t h
  refine ⟨fun hi => ?_, fun m o hbr hm => ?_, fun hi => ?_⟩
  · obtain ⟨j, hc, rfl | ⟨-, hj⟩⟩ := exec_completes h
    · exact hc.pc_eq hi
    · exact hc.pc_eq (writesPc_eq_false_of_isTrap hj)
  · subst hbr
    rw [exec_br, branchTaken, if_neg (by simp [hm])] at h
    cases h; rfl
  · have hw : i.wellFormed = true := wellFormed_of_ne_trap (by rintro _ rfl; cases hi)
    exact (completed_of_wellFormed hw h).cond_eq (writeDRTarget_eq_none_of_writesPc hi)

/-! ### Nothing but BR reads COND -/

/-- A meaning that does the same whatever COND holds, COND itself not looked at. -/
def CondBlind (k : State → Result) : Prop :=
  ∀ (s : State) (c : BitVec 3), eraseCond (k { s with cond := c }) = eraseCond (k s)

theorem condBlind_next : CondBlind .next := fun _ _ => rfl

theorem condBlind_writeDR (r : Reg) (v : Word) : CondBlind (fun s => .next (s.writeDR r v)) := fun _ _ => rfl

theorem condBlind_halt (c : HaltCause) : CondBlind (fun s => .next (s.halt c)) := fun _ _ => rfl

theorem condBlind_emit (e : Event) {k : State → Result} (hk : CondBlind k) : CondBlind (emit e · k) := by
  intro s c
  simp only [emit]
  match s.cout.take with
  | some (.ok, q) => exact hk { s with output := s.output ++ [e], cout := q } c
  | some (.fail, _) | none => rfl

theorem condBlind_consoleRead {k : Byte → State → Result} (hk : ∀ b, CondBlind (k b)) :
    CondBlind (consoleRead · k) := by
  intro s c
  simp only [consoleRead]
  match s.cin.take with
  | some (.byte b, p) => exact hk b { s with cin := p } c
  | some (.endOfInput, _) | none => rfl

theorem condBlind_putsFrom (n : Nat) (a : Word) : CondBlind (putsFrom n a) := by
  induction n generalizing a with
  | zero => exact fun _ _ => rfl
  | succ n ih =>
    intro s c
    have hread : State.memRead { s with cond := c } a = s.memRead a := rfl
    simp only [putsFrom, hread]
    split
    · rfl
    · exact condBlind_emit _ (ih _) s c

theorem condBlind_putspFrom (n : Nat) (a : Word) : CondBlind (putspFrom n a) := by
  induction n generalizing a with
  | zero => exact fun _ _ => rfl
  | succ n ih =>
    intro s c
    have hread : State.memRead { s with cond := c } a = s.memRead a := rfl
    simp only [putspFrom, hread]
    split
    · rfl
    · refine condBlind_emit _ (fun t c' => ?_) s c
      split
      · rfl
      · exact condBlind_emit _ (ih _) t c'

/-- The link write reads no COND, so a service may follow it. -/
theorem CondBlind.trapEntry {k : State → Result} (hk : CondBlind k) : CondBlind (fun s => k s.trapEntry) :=
  fun s c => hk s.trapEntry c

/-- No well-formed instruction but BR reads COND. -/
theorem condBlind_exec {i : Instr} (hw : i.wellFormed = true) (hi : ∀ m o, i ≠ .br m o) :
    CondBlind (exec i) := by
  cases i with
  | br m o => exact absurd rfl (hi m o)
  | addReg | addImm | andReg | andImm | not | ld | ldr | ldi | lea | st | str | sti | jmp | jsr | jsrr =>
    exact fun _ _ => rfl
  | rti | res => exact condBlind_emit _ (condBlind_halt _)
  | trap vec =>
    intro s c
    rw [exec_trap _ hw, exec_trap _ hw]
    exact (condBlind_emit _ condBlind_next).trapEntry s c
  | out => exact fun s => (condBlind_emit (.char (lowByte (s.reg .r0))) condBlind_next) s.trapEntry
  | puts => exact fun s => condBlind_putsFrom (scanFuel s) (s.reg .r0) s.trapEntry
  | putsp => exact fun s => condBlind_putspFrom (scanFuel s) (s.reg .r0) s.trapEntry
  | halt => exact (condBlind_emit _ (condBlind_halt _)).trapEntry
  | getc => exact (condBlind_consoleRead fun _ => condBlind_writeDR _ _).trapEntry
  | inp =>
    exact (condBlind_emit _ (condBlind_consoleRead fun _ => condBlind_emit _ (condBlind_writeDR _ _))).trapEntry

/-- Settles O46: a TRAP term with a service's vector does what the service's own term does. -/
theorem condIsReadOnlyByBr : Obligations.CondIsReadOnlyByBr := by
  unfold Obligations.CondIsReadOnlyByBr
  refine ⟨fun i s t hw hd h => (completed_of_wellFormed hw h).cond_eq hd, fun i s c hi => ?_⟩
  cases i with
  | trap vec =>
    simp only [exec_trap_eq_exec_decodeTrap]
    refine condBlind_exec (wellFormed_decodeTrap _) (fun m o hbr => ?_) s c
    have ht := isTrap_decodeTrap (zext8 vec)
    rw [hbr] at ht; cases ht
  | _ => exact condBlind_exec rfl hi s c

/-! ### A step, and the output history -/

/-- A RUNNING core's step completes the instruction fetched (R80, R81); any other step changes nothing (R37). -/
theorem step_completes {s t : State} (h : step s = .next t) :
    (s.runState = .running ∧ ∃ i, Completed i s.advancePc t) ∨ (s.runState ≠ .running ∧ t = s) := by
  unfold step at h
  split at h
  next hr =>
    obtain ⟨j, hc, -⟩ := exec_completes h
    exact .inl ⟨hr, j, hc⟩
  all_goals
    next hr => cases h; exact .inr ⟨by simp [hr], rfl⟩

/-- An instruction's events stand after those before it (R40, R203). -/
theorem Completed.output_grows {i : Instr} {s t : State} (h : Completed i s t) :
    ∃ es : List Event, t.output = s.output ++ es := by
  cases h with
  | wroteDR | stored | fellThrough | branched | jumped | called => exact ⟨[], s.output.append_nil.symm⟩
  | emitted | byteStored | halted | reserved | reservedFailed | outputFailed | inputEnded => exact ⟨_, rfl⟩

/-- Settles O50, by the shape of the completed instruction's effect. -/
theorem outputHistoryOnlyGrows : Obligations.OutputHistoryOnlyGrows := by
  unfold Obligations.OutputHistoryOnlyGrows
  intro s t h
  obtain ⟨-, i, hc⟩ | ⟨-, rfl⟩ := step_completes h
  · exact hc.output_grows
  · exact ⟨[], t.output.append_nil.symm⟩

end Sys2Proof.Machine
end

section
/-! The invariant of spec/10_state.md R29, R34 and R35 (O48, O49), the reset values of R41 (O54), and the host's
`step` port, single steps and run-to-halt (R37, O2). -/

namespace Sys2Proof.Machine

/-! ### What keeps the invariant -/

theorem cc_legal (v : Word) : cc v = 0b001#3 ∨ cc v = 0b010#3 ∨ cc v = 0b100#3 := by
  unfold cc
  split_ifs
  · exact .inr (.inl rfl)
  · exact .inr (.inr rfl)
  · exact .inl rfl

theorem State.Inv.writeDR {s : State} (h : s.Inv) (d : Reg) (v : Word) : (s.writeDR d v).Inv := by
  obtain ⟨hmem, -, hcauses⟩ := h
  exact ⟨hmem, cc_legal v, hcauses⟩

theorem State.Inv.memWrite {s : State} (h : s.Inv) (a v : Word) : (s.memWrite a v).Inv := by
  obtain ⟨hmem, hcond, hcauses⟩ := h
  exact ⟨State.wf_memWrite a v hmem, hcond, hcauses⟩

theorem State.Inv.writePc {s : State} (h : s.Inv) (a : Word) : (s.writePc a).Inv := h

theorem State.Inv.advancePc {s : State} (h : s.Inv) : s.advancePc.Inv := h

theorem State.Inv.linkPc {s : State} (h : s.Inv) : s.linkPc.Inv := h

theorem State.Inv.trapEntry {s : State} (h : s.Inv) : s.trapEntry.Inv := h

theorem State.Inv.afterConsole {s : State} (h : s.Inv) (es : List Event) (p : Answers CinAnswer)
    (q : Answers CoutAnswer) : (s.afterConsole es p q).Inv := h

/-- A RUNNING core has no cause, so a halt sets the one its end has (R34). -/
theorem State.Inv.halt {s : State} (h : s.Inv) (hr : s.runState = .running) {c : HaltCause} (hc : c ≠ .none) :
    (s.halt c).Inv := by
  obtain ⟨hmem, hcond, -, hfault⟩ := h
  exact ⟨hmem, hcond, by simp [hc], by simpa [hr] using hfault⟩

/-- The same for a fault (R35). -/
theorem State.Inv.raiseFault {s : State} (h : s.Inv) (hr : s.runState = .running) {c : FaultCause}
    (hc : c ≠ .none) : (s.raiseFault c).Inv := by
  obtain ⟨hmem, hcond, hhalt, -⟩ := h
  exact ⟨hmem, hcond, by simpa [hr] using hhalt, by simp [hc]⟩

/-- An instruction run on a RUNNING core keeps the invariant. -/
theorem Completed.inv {i : Instr} {s t : State} (h : Completed i s t) (hr : s.runState = .running)
    (hs : s.Inv) : t.Inv := by
  cases h with
  | wroteDR => exact hs.writeDR _ _
  | stored => exact hs.memWrite _ _
  | fellThrough => exact hs
  | branched | jumped => exact hs.writePc _
  | called => exact hs.linkPc.writePc _
  | emitted => exact hs.trapEntry.afterConsole _ _ _
  | byteStored => exact (hs.trapEntry.afterConsole _ _ _).writeDR _ _
  | halted => exact (hs.trapEntry.afterConsole _ _ _).halt hr nofun
  | reserved hi =>
    refine (hs.afterConsole _ _ _).halt hr ?_
    obtain ⟨-, rfl⟩ | ⟨-, rfl⟩ := hi <;> nofun
  | reservedFailed => exact (hs.afterConsole _ _ _).raiseFault hr nofun
  | outputFailed | inputEnded => exact (hs.trapEntry.afterConsole _ _ _).raiseFault hr nofun

/-- Settles O48, by the shape of the completed instruction's effect. -/
theorem stepKeepsInvariant : Obligations.StepKeepsInvariant := by
  unfold Obligations.StepKeepsInvariant
  intro s t hs h
  obtain ⟨hr, i, hc⟩ | ⟨-, rfl⟩ := step_completes h
  · exact hc.inv hr hs.advancePc
  · exact hs

/-! ### Reset -/

/-- Settles O49: each part read off the reset values. -/
theorem resetMeetsInvariant : Obligations.ResetMeetsInvariant := by
  unfold Obligations.ResetMeetsInvariant
  exact ⟨rfl, .inr (.inl rfl), ⟨nofun, fun _ => rfl⟩, ⟨nofun, fun _ => rfl⟩⟩

theorem State.reg_reset (r : Reg) : State.reset.reg r = 0x0000#16 := by cases r <;> rfl

/-- A step outside RUNNING changes nothing (R37). -/
theorem step_of_not_running {s : State} (h : s.runState ≠ .running) : step s = .next s := by
  unfold step
  split
  · contradiction
  all_goals rfl

/-- Settles O54: each value read off the reset state; IDLE is not RUNNING, so a step does nothing. -/
theorem resetValues : Obligations.ResetValues := by
  unfold Obligations.ResetValues
  exact ⟨State.reg_reset, rfl, rfl, fun _ => rfl, rfl, rfl, rfl, rfl, rfl, step_of_not_running nofun⟩

/-! ### Run-to-halt -/

theorem core_run_of_not_running {s : State} (h : s.runState ≠ .running) (n : Nat) :
    Host.Core.run Sys2Proof.core n s = .next s := by
  induction n with
  | zero => rfl
  | succ n ih => rw [core_run_of_next n (step_of_not_running h)]; exact ih

/-- A run of `n` steps and then of `m` is one of `n + m`. -/
theorem core_run_add {n : Nat} (m : Nat) {s t : State} (h : Host.Core.run Sys2Proof.core n s = .next t) :
    Host.Core.run Sys2Proof.core (n + m) s = Host.Core.run Sys2Proof.core m t := by
  induction n generalizing s with
  | zero => cases h; rw [Nat.zero_add]
  | succ n ih =>
    rw [Nat.add_right_comm]
    match hs : step s with
    | .next u => rw [core_run_of_next _ hs] at h ⊢; exact ih h
    | .fault r => rw [core_run_of_fault _ hs] at h; cases h
    | .refused r => rw [core_run_of_refused _ hs] at h; cases h

/-- Run-to-halt stops early only where every further step changes nothing. -/
theorem runToHalt_eq_core_run (n : Nat) (s : State) : runToHalt n s = Host.Core.run Sys2Proof.core n s := by
  induction n generalizing s with
  | zero => rfl
  | succ n ih =>
    unfold runToHalt
    match hs : step s with
    | .next t =>
      rw [core_run_of_next n hs]
      by_cases ht : t.runState = .running
      · exact (if_pos ht).trans (ih t)
      · exact (if_neg ht).trans (core_run_of_not_running ht n).symm
    | .fault r => exact (core_run_of_fault n hs).symm
    | .refused r => exact (core_run_of_refused n hs).symm

/-- Settles O2: the steps past the first state that is not RUNNING change nothing. -/
theorem runToHaltIsRepeatedSteps : Obligations.RunToHaltIsRepeatedSteps := by
  unfold Obligations.RunToHaltIsRepeatedSteps
  refine ⟨fun s => step_of_not_running, runToHalt_eq_core_run, fun n s t h ht m hm => ?_⟩
  obtain ⟨k, rfl⟩ := Nat.exists_eq_add_of_le hm
  rw [runToHalt_eq_core_run] at h ⊢
  rw [core_run_add k h]
  exact core_run_of_not_running ht k

end Sys2Proof.Machine
end

section
/-! The two ways an image is loaded (spec/70_reset_and_hazards.md R276 to R278; O57, O58). -/

namespace Sys2Proof.Machine

/-- A core that was booted at `start` with the words `ws` from there on, every other word 0x0000, and all else as
at reset (R41, R270, R277). -/
def BootedAt (start : Word) (ws : List Word) (t : State) : Prop :=
  t.pc = start ∧ t.runState = .running ∧
  (∀ (k : Nat) (w : Word), ws[k]? = some w → t.memRead (start + BitVec.ofNat 16 k) = w) ∧
  (∀ a : Word, a.toNat < start.toNat ∨ start.toNat + ws.length ≤ a.toNat → t.memRead a = 0x0000#16) ∧
  (∀ r : Reg, t.reg r = 0x0000#16) ∧ t.cond = 0b010#3 ∧ t.haltCause = .none ∧ t.faultCause = .none ∧
  t.output = []

/-- The address `k` words on, where no word lies past 0xFFFF. -/
theorem toNat_add_ofNat {start : Word} {k : Nat} (h : start.toNat + k < 65536) :
    (start + BitVec.ofNat 16 k).toNat = start.toNat + k := by
  rw [BitVec.toNat_add, BitVec.toNat_ofNat, Nat.add_mod_mod, Nat.mod_eq_of_lt h]

/-- Booting an image whose words are placed from `start` on. -/
theorem boot_of_placeWords {plausible : Word → Bool} {image : List Byte} {start : Word} {ws : List Word}
    (s : State) (hload : loadImage plausible image = placeWords start ws) (hfit : start.toNat + ws.length ≤ 65536) :
    ∃ t, boot plausible image s = (t, .started start) ∧ BootedAt start ws t := by
  rw [placeWords_eq_some.mpr ⟨hfit, rfl⟩] at hload
  refine ⟨{ resetCore s with mem := loadWords start.toNat ws [], pc := start, runState := .running },
    by rw [boot, hload], rfl, rfl, fun k w hw => ?_, fun a ha => ?_, State.reg_reset, rfl, rfl, rfl, rfl⟩
  · have hk : k < ws.length := (List.getElem?_eq_some_iff.mp hw).1
    rw [State.memRead, toNat_add_ofNat (by omega), read_loadWords, if_pos (by omega), Nat.add_sub_cancel_left, hw]
    rfl
  · rw [State.memRead, read_loadWords, if_neg (by omega)]
    rfl

/-- Settles O57: the loader places the words after the origin there. -/
theorem headerImageLoadsAtOrigin : Obligations.HeaderImageLoadsAtOrigin := by
  unfold Obligations.HeaderImageLoadsAtOrigin
  intro plausible image o ws s hws ho hfit
  exact boot_of_placeWords s (by rw [loadImage, hws]; exact if_pos ho) hfit

/-- Settles O58: the loader places the whole image at START_DEFAULT. -/
theorem headerlessImageLoadsAt3000 : Obligations.HeaderlessImageLoadsAt3000 := by
  unfold Obligations.HeaderlessImageLoadsAt3000
  intro plausible image w0 ws s hws h0 hlen
  have hfit : Config.startDefault.toNat + (w0 :: ws).length ≤ 65536 := by
    rw [List.length_cons, show Config.startDefault.toNat = 0x3000 from rfl]; omega
  exact boot_of_placeWords s (by rw [loadImage, hws]; simp [h0]) hfit

end Sys2Proof.Machine
end

section
/-! The memory port of spec/20_memory.md: where an effective address lies (R69; O29), which words an instruction
leaves (R55; O44), and that a fetch sees every store before it (R66; O30). -/

namespace Sys2Proof.Machine

/-! ### Effective addresses -/

/-- A word plus a sign-extended field, modulo 2^16: the two addends as integers (R10, R69). -/
theorem add_sext_eq_ofInt {n : Nat} (base : Word) (off : BitVec n) :
    base + sext off = BitVec.ofInt 16 (base.toNat + off.toInt) := by
  rw [BitVec.ofInt_add, BitVec.ofInt_natCast, BitVec.ofNat_toNat, BitVec.setWidth_eq, sext, BitVec.signExtend]

/-- Settles O29: the sum is the same for every base and width, and the ranges are two's complement's. -/
theorem effectiveAddressesWrap : Obligations.EffectiveAddressesWrap := by
  unfold Obligations.EffectiveAddressesWrap
  intro s b o9 o11 o6
  exact ⟨add_sext_eq_ofInt s.pc o9, o9.le_toInt, Int.le_of_lt_add_one o9.toInt_lt,
    add_sext_eq_ofInt s.pc o11, o11.le_toInt, Int.le_of_lt_add_one o11.toInt_lt,
    add_sext_eq_ofInt (s.reg b) o6, o6.le_toInt, Int.le_of_lt_add_one o6.toInt_lt⟩

/-! ### What an instruction leaves of memory -/

/-- The only memory write of an instruction is the store at its store address (R55). -/
theorem Completed.memRead_eq {i : Instr} {s t : State} (h : Completed i s t) {a : Word}
    (ha : storeAddress i s ≠ some a) : t.memRead a = s.memRead a := by
  cases h with
  | stored hea => rw [State.memRead_memWrite, if_neg (by rintro rfl; exact ha hea)]
  | _ => rfl

/-- The same over every term: an ill-formed TRAP runs as another TRAP, and no TRAP stores (R210). -/
theorem memRead_of_exec {i : Instr} {s t : State} (h : exec i s = .next t) {a : Word}
    (ha : storeAddress i s ≠ some a) : t.memRead a = s.memRead a := by
  obtain ⟨j, hc, rfl | ⟨-, hj⟩⟩ := exec_completes h
  · exact hc.memRead_eq ha
  · exact hc.memRead_eq (by rw [storeAddress_eq_none_of_isTrap s hj]; nofun)

/-- Settles O44: in both cases the word read is not at the store address. -/
theorem onlyStoresWriteMemory : Obligations.OnlyStoresWriteMemory := by
  unfold Obligations.OnlyStoresWriteMemory
  intro i s t h
  refine ⟨fun hnone a => memRead_of_exec h ?_, fun ea hea a hne => memRead_of_exec h ?_⟩
  · rw [hnone]; nofun
  · rw [hea]; exact fun heq => hne (Option.some.inj heq).symm

/-! ### A fetch sees every store before it -/

/-- The three stores are one write, of the source register at the store address (R167, R169, R171). -/
theorem exec_of_storeAddress {i : Instr} {r : Reg} {s : State} {ea : Word}
    (hi : (∃ o, i = .st r o) ∨ (∃ b o, i = .str r b o) ∨ (∃ o, i = .sti r o))
    (hea : storeAddress i s = some ea) : exec i s = .next (s.memWrite ea (s.reg r)) := by
  obtain ⟨o, rfl⟩ | ⟨b, o, rfl⟩ | ⟨o, rfl⟩ := hi <;> cases hea
  · exact exec_st s r o
  · exact exec_str s r b o
  · exact exec_sti s r o

/-- A RUNNING core runs the word at its PC, on the state after the fetch advance (R80, R81, R86). -/
theorem step_of_running {s : State} (h : s.runState = .running) :
    step s = exec (decode (s.memRead s.pc)) s.advancePc := by
  unfold step
  rw [h]

/-- The word just written at the PC is the next one a RUNNING core runs (R65, R66). -/
theorem step_memWrite_pc {s : State} (h : s.runState = .running) (v : Word) :
    step (s.memWrite s.pc v) = exec (decode v) (s.memWrite s.pc v).advancePc := by
  rw [step_of_running (s := s.memWrite s.pc v) h, State.memWrite_pc, State.memRead_memWrite, if_pos rfl]

/-- Settles O30: the store is one write at the PC, and the next step runs the word it wrote (the spec's decision
D15). -/
theorem storeIsSeenByTheNextFetch : Obligations.StoreIsSeenByTheNextFetch := by
  unfold Obligations.StoreIsSeenByTheNextFetch
  intro i r s hi hrun hea
  exact ⟨s.memWrite s.pc (s.reg r), exec_of_storeAddress hi hea, rfl, step_memWrite_pc hrun (s.reg r)⟩

end Sys2Proof.Machine
end

section
/-! The decoder and the encoder of spec/30_encoding.md against one table of the formats R88 to R98 (O3 to O8): a
word is an instruction's exactly where the format's fields hold its operands, the encoder writes those fields, and
the unused bits of R103 are the bits outside them. -/

namespace Sys2Proof

/-! ### The opcode map, one equation per form (R84) -/

section OpcodeMap

variable {ir : Word}

theorem decode_br (h : getBits ir 12 4 = 0x0#4) : decode ir = .br (getBits ir 9 3) (getBits ir 0 9) :=
  decode_eq_of_opcode h

theorem decode_add (h : getBits ir 12 4 = 0x1#4) : decode ir = decodeAdd ir := decode_eq_of_opcode h

theorem decode_addReg (h : getBits ir 12 4 = 0x1#4) (h5 : ir.getLsbD 5 = false) :
    decode ir = .addReg (regAt ir 9) (regAt ir 6) (regAt ir 0) := by
  rw [decode_add h, decodeAdd, h5]

theorem decode_addImm (h : getBits ir 12 4 = 0x1#4) (h5 : ir.getLsbD 5 = true) :
    decode ir = .addImm (regAt ir 9) (regAt ir 6) (getBits ir 0 5) := by
  rw [decode_add h, decodeAdd, h5]

theorem decode_ld (h : getBits ir 12 4 = 0x2#4) : decode ir = .ld (regAt ir 9) (getBits ir 0 9) :=
  decode_eq_of_opcode h

theorem decode_st (h : getBits ir 12 4 = 0x3#4) : decode ir = .st (regAt ir 9) (getBits ir 0 9) :=
  decode_eq_of_opcode h

theorem decode_jsr_or_jsrr (h : getBits ir 12 4 = 0x4#4) : decode ir = decodeJsr ir := decode_eq_of_opcode h

theorem decode_jsr (h : getBits ir 12 4 = 0x4#4) (h11 : ir.getLsbD 11 = true) :
    decode ir = .jsr (getBits ir 0 11) := by
  rw [decode_jsr_or_jsrr h, decodeJsr, h11]

theorem decode_jsrr (h : getBits ir 12 4 = 0x4#4) (h11 : ir.getLsbD 11 = false) :
    decode ir = .jsrr (regAt ir 6) := by
  rw [decode_jsr_or_jsrr h, decodeJsr, h11]

theorem decode_and (h : getBits ir 12 4 = 0x5#4) : decode ir = decodeAnd ir := decode_eq_of_opcode h

theorem decode_andReg (h : getBits ir 12 4 = 0x5#4) (h5 : ir.getLsbD 5 = false) :
    decode ir = .andReg (regAt ir 9) (regAt ir 6) (regAt ir 0) := by
  rw [decode_and h, decodeAnd, h5]

theorem decode_andImm (h : getBits ir 12 4 = 0x5#4) (h5 : ir.getLsbD 5 = true) :
    decode ir = .andImm (regAt ir 9) (regAt ir 6) (getBits ir 0 5) := by
  rw [decode_and h, decodeAnd, h5]

theorem decode_ldr (h : getBits ir 12 4 = 0x6#4) :
    decode ir = .ldr (regAt ir 9) (regAt ir 6) (getBits ir 0 6) := decode_eq_of_opcode h

theorem decode_str (h : getBits ir 12 4 = 0x7#4) :
    decode ir = .str (regAt ir 9) (regAt ir 6) (getBits ir 0 6) := decode_eq_of_opcode h

theorem decode_rti (h : getBits ir 12 4 = 0x8#4) : decode ir = .rti := decode_eq_of_opcode h

theorem decode_not (h : getBits ir 12 4 = 0x9#4) : decode ir = .not (regAt ir 9) (regAt ir 6) :=
  decode_eq_of_opcode h

theorem decode_ldi (h : getBits ir 12 4 = 0xA#4) : decode ir = .ldi (regAt ir 9) (getBits ir 0 9) :=
  decode_eq_of_opcode h

theorem decode_sti (h : getBits ir 12 4 = 0xB#4) : decode ir = .sti (regAt ir 9) (getBits ir 0 9) :=
  decode_eq_of_opcode h

theorem decode_jmp (h : getBits ir 12 4 = 0xC#4) : decode ir = .jmp (regAt ir 6) := decode_eq_of_opcode h

theorem decode_res (h : getBits ir 12 4 = 0xD#4) : decode ir = .res := decode_eq_of_opcode h

theorem decode_lea (h : getBits ir 12 4 = 0xE#4) : decode ir = .lea (regAt ir 9) (getBits ir 0 9) :=
  decode_eq_of_opcode h

theorem decode_trap (h : getBits ir 12 4 = 0xF#4) : decode ir = decodeTrap ir := decode_eq_of_opcode h

end OpcodeMap

/-- Settles O4, by the opcode map. -/
theorem opcodeSelectsTheVariant : Obligations.OpcodeSelectsTheVariant := by
  unfold Obligations.OpcodeSelectsTheVariant
  intro ir
  refine ⟨fun h => ⟨_, _, decode_br h⟩, fun h h5 => ⟨_, _, _, decode_addReg h h5⟩,
    fun h h5 => ⟨_, _, _, decode_addImm h h5⟩, fun h => ⟨_, _, decode_ld h⟩, fun h => ⟨_, _, decode_st h⟩,
    fun h h11 => ⟨_, decode_jsr h h11⟩, fun h h11 => ⟨_, decode_jsrr h h11⟩,
    fun h h5 => ⟨_, _, _, decode_andReg h h5⟩, fun h h5 => ⟨_, _, _, decode_andImm h h5⟩,
    fun h => ⟨_, _, _, decode_ldr h⟩, fun h => ⟨_, _, _, decode_str h⟩, decode_rti,
    fun h => ⟨_, _, decode_not h⟩, fun h => ⟨_, _, decode_ldi h⟩, fun h => ⟨_, _, decode_sti h⟩,
    fun h => ⟨_, decode_jmp h⟩, decode_res, fun h => ⟨_, _, decode_lea h⟩, fun h => ?_⟩
  rw [decode_trap h]
  exact Machine.isTrap_decodeTrap ir

/-! ### The formats (R88 to R98) -/

/-- A field of an instruction word: `count` bits from bit `start` up, and what they hold. -/
structure BitField where
  start : Nat
  count : Nat
  value : BitVec count

/-- The fields below the opcode: DR or SR at bit 9, SR1 or BaseR at 6, SR2 at 0, the mode bit 5, the long-flag bit
11, immediates, offsets and the vector at 0 (R87 to R98). -/
def Instr.operandFields : Instr → List BitField
  | .br nzp off => [⟨9, 3, nzp⟩, ⟨0, 9, off⟩]
  | .addReg dr sr1 sr2 | .andReg dr sr1 sr2 =>
    [⟨9, 3, dr.toBits⟩, ⟨6, 3, sr1.toBits⟩, ⟨5, 1, 0#1⟩, ⟨0, 3, sr2.toBits⟩]
  | .addImm dr sr1 imm | .andImm dr sr1 imm =>
    [⟨9, 3, dr.toBits⟩, ⟨6, 3, sr1.toBits⟩, ⟨5, 1, 1#1⟩, ⟨0, 5, imm⟩]
  | .ld r off | .st r off | .ldi r off | .sti r off | .lea r off => [⟨9, 3, r.toBits⟩, ⟨0, 9, off⟩]
  | .jsrr base => [⟨11, 1, 0#1⟩, ⟨6, 3, base.toBits⟩]
  | .jsr off => [⟨11, 1, 1#1⟩, ⟨0, 11, off⟩]
  | .ldr r base off | .str r base off => [⟨9, 3, r.toBits⟩, ⟨6, 3, base.toBits⟩, ⟨0, 6, off⟩]
  | .not dr sr => [⟨9, 3, dr.toBits⟩, ⟨6, 3, sr.toBits⟩]
  | .jmp base => [⟨6, 3, base.toBits⟩]
  | .rti | .res => []
  | .trap vec => [⟨0, 8, vec⟩]
  | .getc => [⟨0, 8, 0x20#8⟩]
  | .out => [⟨0, 8, 0x21#8⟩]
  | .puts => [⟨0, 8, 0x22#8⟩]
  | .inp => [⟨0, 8, 0x23#8⟩]
  | .putsp => [⟨0, 8, 0x24#8⟩]
  | .halt => [⟨0, 8, 0x25#8⟩]

/-- All the fields of an instruction's word, the opcode first (R82). -/
def Instr.fields (i : Instr) : List BitField := ⟨12, 4, i.opcode⟩ :: i.operandFields

/-- The word holds each of the fields. -/
def Holds (ir : Word) (fs : List BitField) : Prop := ∀ f ∈ fs, getBits ir f.start f.count = f.value

@[simp] theorem holds_nil (ir : Word) : Holds ir [] := nofun

@[simp] theorem holds_cons {ir : Word} {s c : Nat} {v : BitVec c} {fs : List BitField} :
    Holds ir (⟨s, c, v⟩ :: fs) ↔ getBits ir s c = v ∧ Holds ir fs := List.forall_mem_cons

theorem holds_fields {ir : Word} {i : Instr} :
    Holds ir i.fields ↔ getBits ir 12 4 = i.opcode ∧ Holds ir i.operandFields := holds_cons

/-! ### The encoder writes the fields -/

open Laws in
theorem opcode_encode (i : Instr) : getBits (encode i) 12 4 = i.opcode := by
  cases i with
  | br => exact EncodesOwnOpcode.br _ _
  | addReg => exact EncodesOwnOpcode.addReg _ _ _
  | addImm => exact EncodesOwnOpcode.addImm _ _ _
  | ld => exact EncodesOwnOpcode.ld _ _
  | st => exact EncodesOwnOpcode.st _ _
  | jsrr => exact EncodesOwnOpcode.jsrr _
  | jsr => exact EncodesOwnOpcode.jsr _
  | andReg => exact EncodesOwnOpcode.andReg _ _ _
  | andImm => exact EncodesOwnOpcode.andImm _ _ _
  | ldr => exact EncodesOwnOpcode.ldr _ _ _
  | str => exact EncodesOwnOpcode.str _ _ _
  | rti => exact EncodesOwnOpcode.rti
  | not => exact EncodesOwnOpcode.not _ _
  | ldi => exact EncodesOwnOpcode.ldi _ _
  | sti => exact EncodesOwnOpcode.sti _ _
  | jmp => exact EncodesOwnOpcode.jmp _
  | res => exact EncodesOwnOpcode.res
  | lea => exact EncodesOwnOpcode.lea _ _
  | trap => exact EncodesOwnOpcode.trap _
  | getc => exact EncodesOwnOpcode.getc
  | out => exact EncodesOwnOpcode.out
  | puts => exact EncodesOwnOpcode.puts
  | inp => exact EncodesOwnOpcode.inp
  | putsp => exact EncodesOwnOpcode.putsp
  | halt => exact EncodesOwnOpcode.halt

/-- Each field stands at its own place in the concatenation that the encoder writes. -/
theorem holds_encode (i : Instr) : Holds (encode i) i.fields := by
  refine holds_fields.mpr ⟨opcode_encode i, ?_⟩
  cases i <;>
    simp (disch := decide) only [Instr.operandFields, holds_cons, holds_nil, and_self, encode, getBits,
      BitVec.extractLsb'_append_eq_of_le, BitVec.extractLsb'_append_eq_of_add_le, BitVec.extractLsb'_eq_self,
      Nat.reduceSub]

/-! ### The decoder reads the fields -/

/-- A register field holds a register's index exactly where it names that register (R87). -/
theorem getBits_eq_toBits {ir : Word} {s : Nat} {r : Reg} : getBits ir s 3 = r.toBits ↔ regAt ir s = r :=
  ⟨fun h => by rw [regAt, h, Reg.ofBits_toBits], fun h => by rw [← h, regAt, Reg.toBits_ofBits]⟩

/-- A one-bit field is a bit of the word. -/
theorem getBits_one (ir : Word) (k : Nat) : getBits ir k 1 = BitVec.ofBool (ir.getLsbD k) := by
  refine BitVec.eq_of_getLsbD_eq fun i hi => ?_
  obtain rfl : i = 0 := by omega
  rw [getBits_getLsbD _ _ _ _ hi]
  simp

theorem getBits_one_eq_zero {ir : Word} {k : Nat} : getBits ir k 1 = 0#1 ↔ ir.getLsbD k = false := by
  rw [getBits_one]; cases ir.getLsbD k <;> decide

theorem getBits_one_eq_one {ir : Word} {k : Nat} : getBits ir k 1 = 1#1 ↔ ir.getLsbD k = true := by
  rw [getBits_one]; cases ir.getLsbD k <;> decide

/-- The opcode field from its four bits, bit 15 down. -/
theorem getBits_opcode_eq {ir : Word} {c : BitVec 4} (h3 : ir.getLsbD 15 = c.getLsbD 3)
    (h2 : ir.getLsbD 14 = c.getLsbD 2) (h1 : ir.getLsbD 13 = c.getLsbD 1) (h0 : ir.getLsbD 12 = c.getLsbD 0) :
    getBits ir 12 4 = c := by
  refine BitVec.eq_of_getLsbD_eq fun k hk => ?_
  rw [getBits_getLsbD _ _ _ _ hk]
  interval_cases k
  exacts [h0, h1, h2, h3]

theorem holds_decodeTrap {ir : Word} (h : getBits ir 12 4 = 0xF#4) : Holds ir (decodeTrap ir).fields := by
  unfold decodeTrap
  dsimp only
  split_ifs <;> simp only [holds_fields, Instr.opcode, Instr.operandFields, holds_cons, holds_nil, and_self, *]

/-- Every word holds the fields of the instruction it decodes to. -/
theorem holds_decode (ir : Word) : Holds ir (decode ir).fields := by
  unfold decode
  split <;> rename_i h3 h2 h1 h0
  case h_16 => exact holds_decodeTrap (getBits_opcode_eq h3 h2 h1 h0)
  case' h_2 => unfold decodeAdd; split
  case' h_5 => unfold decodeJsr; split
  case' h_6 => unfold decodeAnd; split
  all_goals
    refine holds_fields.mpr ⟨?_, ?_⟩
    · dsimp only [Instr.opcode]
      exact getBits_opcode_eq h3 h2 h1 h0
    · simp only [Instr.operandFields, holds_cons, holds_nil, getBits_eq_toBits, getBits_one_eq_zero,
        getBits_one_eq_one, and_self, *]

theorem opcode_decode (ir : Word) : getBits ir 12 4 = (decode ir).opcode := (holds_fields.mp (holds_decode ir)).1

/-- Every word decodes to a well-formed instruction (R85, R102). -/
theorem wellFormed_decode (ir : Word) : (decode ir).wellFormed = true := by
  by_cases h : getBits ir 12 4 = 0xF#4
  · rw [decode_trap h]
    exact Machine.wellFormed_decodeTrap ir
  · refine Machine.wellFormed_of_ne_trap fun vec hd => h ?_
    rw [opcode_decode, hd, Instr.opcode]

theorem wellFormed_trap {vec : Byte} :
    (Instr.trap vec).wellFormed = true ↔ ¬ (0x20#8 ≤ vec ∧ vec ≤ 0x25#8) := by
  rw [Instr.wellFormed, isServiceVector, Bool.not_eq_true', decide_eq_false_iff_not]

/-- A vector that is no service's (R105, R214). -/
theorem decodeTrap_eq_trap {ir : Word} {vec : Byte} (h : getBits ir 0 8 = vec)
    (hw : (Instr.trap vec).wellFormed = true) : decodeTrap ir = .trap vec := by
  rw [wellFormed_trap] at hw
  rw [decodeTrap, h]
  split_ifs <;> rename_i hvec
  case neg => rfl
  all_goals subst hvec; exact absurd (by decide) hw

/-- Decode, said once: a word that holds a well-formed instruction's fields is that instruction. -/
theorem decode_eq_of_holds {ir : Word} {i : Instr} (hw : i.wellFormed = true) (h : Holds ir i.fields) :
    decode ir = i := by
  obtain ⟨hop, hfs⟩ := holds_fields.mp h
  cases i <;> simp only [Instr.operandFields, holds_cons, holds_nil, and_true, getBits_eq_toBits,
    getBits_one_eq_zero, getBits_one_eq_one] at hfs
  case br => obtain ⟨rfl, rfl⟩ := hfs; exact decode_br hop
  case addReg => obtain ⟨rfl, rfl, h5, rfl⟩ := hfs; exact decode_addReg hop h5
  case addImm => obtain ⟨rfl, rfl, h5, rfl⟩ := hfs; exact decode_addImm hop h5
  case ld => obtain ⟨rfl, rfl⟩ := hfs; exact decode_ld hop
  case st => obtain ⟨rfl, rfl⟩ := hfs; exact decode_st hop
  case jsrr => obtain ⟨h11, rfl⟩ := hfs; exact decode_jsrr hop h11
  case jsr => obtain ⟨h11, rfl⟩ := hfs; exact decode_jsr hop h11
  case andReg => obtain ⟨rfl, rfl, h5, rfl⟩ := hfs; exact decode_andReg hop h5
  case andImm => obtain ⟨rfl, rfl, h5, rfl⟩ := hfs; exact decode_andImm hop h5
  case ldr => obtain ⟨rfl, rfl, rfl⟩ := hfs; exact decode_ldr hop
  case str => obtain ⟨rfl, rfl, rfl⟩ := hfs; exact decode_str hop
  case rti => exact decode_rti hop
  case not => obtain ⟨rfl, rfl⟩ := hfs; exact decode_not hop
  case ldi => obtain ⟨rfl, rfl⟩ := hfs; exact decode_ldi hop
  case sti => obtain ⟨rfl, rfl⟩ := hfs; exact decode_sti hop
  case jmp => subst hfs; exact decode_jmp hop
  case res => exact decode_res hop
  case lea => obtain ⟨rfl, rfl⟩ := hfs; exact decode_lea hop
  case trap => exact (decode_trap hop).trans (decodeTrap_eq_trap hfs hw)
  all_goals rw [decode_trap hop, decodeTrap, hfs]; rfl

/-- Settles O5: the encoder writes the fields that the decoder reads. -/
theorem decodeOfEncodeIsIdentity : Obligations.DecodeOfEncodeIsIdentity := by
  unfold Obligations.DecodeOfEncodeIsIdentity
  exact fun i hw => decode_eq_of_holds hw (holds_encode i)

/-! ### The unused bits are those outside the fields (R103) -/

/-- The bits of a word that a field occupies. -/
def fieldMask (start count : Nat) : Word := (BitVec.allOnes count).setWidth 16 <<< start

/-- The bits of a word that some of the fields occupy. -/
def fieldsMask (fs : List BitField) : Word := fs.foldr (fun f m => fieldMask f.start f.count ||| m) 0x0000#16

theorem getLsbD_fieldMask {start count k : Nat} (hk : k < 16) :
    (fieldMask start count).getLsbD k = decide (start ≤ k ∧ k < start + count) := by
  have hsub : k - start < 16 := by omega
  rw [fieldMask, BitVec.getLsbD_shiftLeft, BitVec.getLsbD_setWidth, BitVec.getLsbD_allOnes, Bool.eq_iff_iff]
  simp only [hk, hsub, decide_true, Bool.true_and, Bool.and_eq_true, Bool.not_eq_true', decide_eq_false_iff_not,
    decide_eq_true_eq]
  omega

/-- Words agree in the bits of a field exactly where they hold the same there. -/
theorem and_fieldMask_eq_iff {v w : Word} {start count : Nat} :
    v &&& fieldMask start count = w &&& fieldMask start count ↔ getBits v start count = getBits w start count := by
  constructor <;> intro h <;> refine BitVec.eq_of_getLsbD_eq fun k hk => ?_
  · rw [getBits_getLsbD _ _ _ _ hk, getBits_getLsbD _ _ _ _ hk]
    by_cases hlt : start + k < 16
    · have hmask : (fieldMask start count).getLsbD (start + k) = true := by
        rw [getLsbD_fieldMask hlt, decide_eq_true_eq]; omega
      simpa only [BitVec.getLsbD_and, hmask, Bool.and_true] using congrArg (·.getLsbD (start + k)) h
    · rw [BitVec.getLsbD_of_ge _ _ (by omega), BitVec.getLsbD_of_ge _ _ (by omega)]
  · rw [BitVec.getLsbD_and, BitVec.getLsbD_and, getLsbD_fieldMask hk]
    by_cases hin : start ≤ k ∧ k < start + count
    · have hbit := congrArg (·.getLsbD (k - start)) h
      simp only [getBits_getLsbD _ _ _ _ (show k - start < count by omega), Nat.add_sub_cancel' hin.1] at hbit
      rw [hbit]
    · rw [decide_eq_false hin, Bool.and_false, Bool.and_false]

theorem word_or_and_absorb (m n : Word) : (m ||| n) &&& m = m := by
  ext k
  simp only [BitVec.getElem_and, BitVec.getElem_or]
  cases m[k] <;> cases n[k] <;> rfl

/-- Words agree under two masks exactly where they agree under each. -/
theorem and_or_eq_and_or_iff {v w m n : Word} :
    v &&& (m ||| n) = w &&& (m ||| n) ↔ v &&& m = w &&& m ∧ v &&& n = w &&& n := by
  refine ⟨fun h => ⟨?_, ?_⟩, fun ⟨hm, hn⟩ => ?_⟩
  · rw [← word_or_and_absorb m n, ← BitVec.and_assoc, h, BitVec.and_assoc]
  · rw [← word_or_and_absorb n m, BitVec.or_comm n m, ← BitVec.and_assoc, h, BitVec.and_assoc]
  · rw [BitVec.and_or_distrib_left, hm, hn, BitVec.and_or_distrib_left]

/-- Words agree in all the bits of the fields exactly where they hold the same in each. -/
theorem and_fieldsMask_eq_iff {v w : Word} {fs : List BitField} :
    v &&& fieldsMask fs = w &&& fieldsMask fs ↔
      ∀ f ∈ fs, getBits v f.start f.count = getBits w f.start f.count := by
  induction fs with
  | nil => simp [fieldsMask]
  | cons f fs ih =>
    rw [List.forall_mem_cons, ← ih, ← and_fieldMask_eq_iff]
    exact and_or_eq_and_or_iff

/-- R103's table holds exactly the bits outside the fields. -/
theorem not_unusedBits (i : Instr) : ~~~i.unusedBits = fieldsMask i.fields := by
  cases i <;>
    simp only [Instr.unusedBits, Instr.fields, Instr.opcode, Instr.operandFields, fieldsMask, List.foldr] <;> rfl

/-- Settles O6: the word and its re-encoding both hold the decoded instruction's fields. -/
theorem encodeOfDecodeKeepsUsedBits : Obligations.EncodeOfDecodeKeepsUsedBits := by
  unfold Obligations.EncodeOfDecodeKeepsUsedBits
  intro ir
  rw [not_unusedBits, and_fieldsMask_eq_iff]
  exact fun f hf => (holds_encode _ f hf).trans (holds_decode ir f hf).symm

/-- Words that differ only in bits of `m` agree outside it. -/
theorem and_not_eq_of_or_eq {v w m : Word} (h : v ||| m = w ||| m) : v &&& ~~~m = w &&& ~~~m := by
  have hmask (x : Word) : (x ||| m) &&& ~~~m = x &&& ~~~m := by
    ext k
    simp only [BitVec.getElem_and, BitVec.getElem_or, BitVec.getElem_not]
    cases x[k] <;> cases m[k] <;> rfl
  rw [← hmask v, h, hmask w]

/-- Words that differ only in bits that the first one's instruction does not use are the same instruction. -/
theorem decode_eq_of_or_unusedBits {v w m : Word} (hm : (decode v).unusedBits = m) (h : v ||| m = w ||| m) :
    decode v = decode w := by
  have hagree : v &&& fieldsMask (decode v).fields = w &&& fieldsMask (decode v).fields := by
    rw [← not_unusedBits, hm]; exact and_not_eq_of_or_eq h
  have hholds : Holds w (decode v).fields := fun f hf =>
    (and_fieldsMask_eq_iff.mp hagree f hf).symm.trans (holds_decode v f hf)
  exact (decode_eq_of_holds (wellFormed_decode v) hholds).symm

theorem unusedBits_of_isTrap {i : Instr} (h : Machine.isTrap i = true) : i.unusedBits = 0x0F00#16 := by
  cases i with
  | trap | getc | out | puts | inp | putsp | halt => rfl
  | _ => cases h

/-- Settles O7: each clause's mask is the unused bits of the instruction that its opcode selects. -/
theorem unusedBitsAreIgnored : Obligations.UnusedBitsAreIgnored := by
  unfold Obligations.UnusedBitsAreIgnored
  intro v w
  refine ⟨fun h h5 => decode_eq_of_or_unusedBits ?_, fun h => decode_eq_of_or_unusedBits ?_,
    fun h => decode_eq_of_or_unusedBits ?_, fun h h11 => decode_eq_of_or_unusedBits ?_,
    fun h => decode_eq_of_or_unusedBits ?_, fun h => decode_eq_of_or_unusedBits ?_⟩
  · obtain h | h := h
    · rw [decode_addReg h h5]; rfl
    · rw [decode_andReg h h5]; rfl
  · rw [decode_not h]; rfl
  · rw [decode_jmp h]; rfl
  · rw [decode_jsrr h h11]; rfl
  · obtain h | h := h
    · rw [decode_rti h]; rfl
    · rw [decode_res h]; rfl
  · rw [decode_trap h]; exact unusedBits_of_isTrap (Machine.isTrap_decodeTrap v)

/-- Settles O8: each word is decoded by evaluation. -/
theorem exampleWordsDecode : Obligations.ExampleWordsDecode := by
  unfold Obligations.ExampleWordsDecode
  decide

end Sys2Proof
end

section
/-! The instruction cycle of spec/30_encoding.md (R80 to R86; O1, O3, O47), BR's mask (R91, R140; O17) and the
dispatcher's UNKNOWN (R214; O41). -/

namespace Sys2Proof.Machine

/-- Settles O1; one added to 0xFFFF is 0x0000 by evaluation. -/
theorem stepFetchesAdvancesAndDispatches : Obligations.StepFetchesAdvancesAndDispatches := by
  unfold Obligations.StepFetchesAdvancesAndDispatches
  refine fun s hr => ⟨step_of_running hr, fun hpc => ?_⟩
  rw [step_of_running hr, State.advancePc, hpc]
  rfl

/-! ### No instruction is refused (R85, R102) -/

/-- A meaning that never answers a refusal. -/
def NeverRefuses (k : State → Result) : Prop := ∀ (s : State) (q : Refusal), k s ≠ .refused q

theorem neverRefuses_next (f : State → State) : NeverRefuses (fun s => .next (f s)) :=
  fun _ _ h => by cases h

theorem neverRefuses_emit (e : Event) {k : State → Result} (hk : NeverRefuses k) : NeverRefuses (emit e · k) := by
  intro s q
  simp only [emit]
  match s.cout.take with
  | some (.ok, rest) => exact hk _ q
  | some (.fail, _) | none => nofun

theorem neverRefuses_consoleRead {k : Byte → State → Result} (hk : ∀ b, NeverRefuses (k b)) :
    NeverRefuses (consoleRead · k) := by
  intro s q
  simp only [consoleRead]
  match s.cin.take with
  | some (.byte b, rest) => exact hk b _ q
  | some (.endOfInput, _) | none => nofun

theorem neverRefuses_putsFrom (n : Nat) (a : Word) : NeverRefuses (putsFrom n a) := by
  induction n generalizing a with
  | zero => exact fun _ _ h => by cases h
  | succ n ih =>
    intro s q
    unfold putsFrom
    split
    · nofun
    · exact neverRefuses_emit _ (ih _) s q

theorem neverRefuses_putspFrom (n : Nat) (a : Word) : NeverRefuses (putspFrom n a) := by
  induction n generalizing a with
  | zero => exact fun _ _ h => by cases h
  | succ n ih =>
    intro s q
    unfold putspFrom
    split
    · nofun
    · refine neverRefuses_emit _ (fun t q' => ?_) s q
      split
      · nofun
      · exact neverRefuses_emit _ (ih _) t q'

theorem neverRefuses_exec {i : Instr} (hw : i.wellFormed = true) : NeverRefuses (exec i) := by
  intro s
  cases i with
  | br | addReg | addImm | andReg | andImm | not | ld | ldr | ldi | lea | st | str | sti | jmp | jsr | jsrr =>
    exact fun _ h => by cases h
  | rti | res => exact neverRefuses_emit _ (neverRefuses_next (·.halt _)) s
  | trap vec => rw [exec_trap s hw]; exact neverRefuses_emit _ (neverRefuses_next id) s.trapEntry
  | out => exact neverRefuses_emit _ (neverRefuses_next id) s.trapEntry
  | halt => exact neverRefuses_emit _ (neverRefuses_next (·.halt _)) s.trapEntry
  | puts => rw [exec_puts]; exact neverRefuses_putsFrom _ _ s.trapEntry
  | putsp => rw [exec_putsp]; exact neverRefuses_putspFrom _ _ s.trapEntry
  | getc => exact neverRefuses_consoleRead (fun b => neverRefuses_next (·.writeDR .r0 (zext8 b))) s.trapEntry
  | inp =>
    exact neverRefuses_emit _ (neverRefuses_consoleRead fun b =>
      neverRefuses_emit _ (neverRefuses_next (·.writeDR .r0 (zext8 b)))) s.trapEntry

/-- Settles O3: the meaning of a well-formed instruction is console transactions and state updates only, and none
of them refuses. -/
theorem everyWordIsAnInstruction : Obligations.EveryWordIsAnInstruction := by
  unfold Obligations.EveryWordIsAnInstruction
  exact fun ir => ⟨wellFormed_decode ir, neverRefuses_exec (wellFormed_decode ir)⟩

/-! ### Where an instruction leaves the run state (R86, R192, R241) -/

/-- The instructions that end the run whatever the host answers. -/
abbrev EndsRun (i : Instr) : Prop := i = .halt ∨ i = .rti ∨ i = .res

/-- The cause with which such an instruction halts (R34). -/
abbrev haltCauseOf (i : Instr) : HaltCause := if i = .halt then .trapHalt else if i = .rti then .opRti else .opRes

/-- The instruction halts the run. -/
def Halted (i : Instr) (s t : State) : Prop :=
  EndsRun i ∧ t.runState = .halted ∧ t.haltCause = haltCauseOf i ∧ t.faultCause = s.faultCause

/-- The instruction faults the run, at the end of input or at a failed output event. -/
def Faulted (i : Instr) (s t : State) : Prop :=
  t.runState = .faulted ∧ t.haltCause = s.haltCause ∧
    (t.faultCause = .inputEnd ∧ (i = .getc ∨ i = .inp) ∨
      t.faultCause = .outputFail ∧ i ≠ .getc ∧ (isTrap i = true ∨ i = .rti ∨ i = .res))

theorem not_endsRun_of_writeDRTarget {i : Instr} {d : Reg} (h : writeDRTarget i = some d) : ¬ EndsRun i := by
  rintro (rfl | rfl | rfl) <;> cases h

theorem not_endsRun_of_storeAddress {i : Instr} {s : State} {ea : Word} (h : storeAddress i s = some ea) :
    ¬ EndsRun i := by
  rintro (rfl | rfl | rfl) <;> cases h

theorem not_endsRun_of_writesPc {i : Instr} (h : writesPc i = true) : ¬ EndsRun i := by
  rintro (rfl | rfl | rfl) <;> cases h

theorem not_endsRun_of_isTrap {i : Instr} (h : isTrap i = true) (hh : i ≠ .halt) : ¬ EndsRun i := by
  rintro (rfl | rfl | rfl)
  · exact hh rfl
  all_goals cases h

/-- An instruction that completes leaves the run state and the causes, halts the run, or faults it. -/
theorem Completed.status_cases {i : Instr} {s t : State} (h : Completed i s t) :
    ¬ EndsRun i ∧ SameStatus s t ∨ Halted i s t ∨ Faulted i s t := by
  cases h with
  | wroteDR hd => exact .inl ⟨not_endsRun_of_writeDRTarget hd, rfl, rfl, rfl⟩
  | stored hea => exact .inl ⟨not_endsRun_of_storeAddress hea, rfl, rfl, rfl⟩
  | fellThrough hi | branched hi | jumped hi =>
    exact .inl ⟨not_endsRun_of_writesPc (by rw [hi]; rfl), rfl, rfl, rfl⟩
  | called hi =>
    have hpc : writesPc i = true := by obtain ⟨_, rfl⟩ | ⟨_, rfl⟩ := hi <;> rfl
    exact .inl ⟨not_endsRun_of_writesPc hpc, rfl, rfl, rfl⟩
  | emitted hi _ hh => exact .inl ⟨not_endsRun_of_isTrap hi hh, rfl, rfl, rfl⟩
  | byteStored hi =>
    have hd : writeDRTarget i = some .r0 := by obtain ⟨rfl, -⟩ | rfl := hi <;> rfl
    exact .inl ⟨not_endsRun_of_writeDRTarget hd, rfl, rfl, rfl⟩
  | halted hi => subst hi; exact .inr (.inl ⟨.inl rfl, rfl, rfl, rfl⟩)
  | reserved hi =>
    obtain ⟨rfl, rfl⟩ | ⟨rfl, rfl⟩ := hi
    · exact .inr (.inl ⟨.inr (.inl rfl), rfl, rfl, rfl⟩)
    · exact .inr (.inl ⟨.inr (.inr rfl), rfl, rfl, rfl⟩)
  | reservedFailed hi =>
    exact .inr (.inr ⟨rfl, rfl, .inr ⟨rfl, by obtain rfl | rfl := hi <;> nofun, .inr hi⟩⟩)
  | outputFailed hi hg => exact .inr (.inr ⟨rfl, rfl, .inr ⟨rfl, hg, .inl hi⟩⟩)
  | inputEnded hi => exact .inr (.inr ⟨rfl, rfl, .inl ⟨rfl, hi.imp_left And.left⟩⟩)

/-- Settles O47, by what the completed instruction did to the run state. -/
theorem runStateTransitions : Obligations.RunStateTransitions := by
  unfold Obligations.RunStateTransitions
  intro i s t hw hr h
  obtain ⟨hi, hrun, hcauses⟩ | ⟨hi, hhalted, hcauses⟩ | ⟨hfaulted, hcauses⟩ :=
    (completed_of_wellFormed hw h).status_cases
  · rw [hrun, hr]
    exact ⟨nofun, by simp [hi], nofun, nofun, fun _ => hcauses⟩
  · rw [hhalted]
    exact ⟨nofun, by simp [hi], fun _ => hcauses, nofun, nofun⟩
  · rw [hfaulted]
    exact ⟨nofun, by simp, nofun, fun _ => hcauses, nofun⟩

/-! ### BR's mask (R91, R106, R140) -/

theorem branchTaken_condP (m : BitVec 3) : branchTaken m 0b001#3 = m.getLsbD 0 := by revert m; decide

theorem branchTaken_condZ (m : BitVec 3) : branchTaken m 0b010#3 = m.getLsbD 1 := by revert m; decide

theorem branchTaken_condN (m : BitVec 3) : branchTaken m 0b100#3 = m.getLsbD 2 := by revert m; decide

theorem branchTaken_none (c : BitVec 3) : branchTaken 0b000#3 c = false := by
  rw [branchTaken, BitVec.zero_and]; rfl

theorem branchTaken_all {s : State} (h : s.condLegal) : branchTaken 0b111#3 s.cond = true := by
  obtain h | h | h := h <;> rw [h] <;> rfl

theorem exec_br_of_branchTaken {s : State} {m : BitVec 3} {taken : Bool} (off : BitVec 9)
    (h : branchTaken m s.cond = taken) :
    exec (.br m off) s = .next (if taken then { s with pc := s.pc + sext off } else s) := by
  subst h; rfl

/-- Settles O17: a one-hot COND picks out one bit of the mask. -/
theorem branchTestsOneFlagBit : Obligations.BranchTestsOneFlagBit := by
  unfold Obligations.BranchTestsOneFlagBit
  refine fun s m off hs => ⟨fun h => ?_, fun h => ?_, fun h => ?_, ?_, ?_⟩
  · exact exec_br_of_branchTaken off (by rw [h, branchTaken_condP])
  · exact exec_br_of_branchTaken off (by rw [h, branchTaken_condZ])
  · exact exec_br_of_branchTaken off (by rw [h, branchTaken_condN])
  · exact exec_br_of_branchTaken off (branchTaken_all hs)
  · exact exec_br_of_branchTaken off (branchTaken_none s.cond)

/-! ### A TRAP with no service (R200, R214) -/

/-- A state whose registers, PC, COND and memory are those of trap entry made its link write only. -/
theorem linkedOnly_of_trapEntry {s t : State} (hregs : t.regs = s.trapEntry.regs) (hpc : t.pc = s.pc)
    (hcond : t.cond = s.cond) (hmem : t.mem = s.mem) : LinkedOnly s t := by
  have hreg (r : Reg) : t.reg r = if r = .r7 then s.pc else s.reg r := by
    rw [← State.reg_trapEntry, State.reg, hregs, State.reg]
  refine ⟨⟨?_, fun r h7 _ => ?_, hpc, fun a => ?_⟩, ?_, hcond⟩
  · rw [hreg, if_pos rfl]
  · rw [hreg, if_neg h7]
  · rw [State.memRead, hmem, State.memRead]
  · rw [hreg, if_neg nofun]

/-- Settles O41, by the host's answer to the notice. -/
theorem unknownVectorReportsAndContinues : Obligations.UnknownVectorReportsAndContinues := by
  unfold Obligations.UnknownVectorReportsAndContinues
  intro ir s hop hvec
  have hw : (Instr.trap (getBits ir 0 8)).wellFormed = true := by
    rw [wellFormed_trap, not_and_or, BitVec.not_le, BitVec.not_le]; exact hvec
  simp only [exec_trap s hw]
  refine ⟨(decode_trap hop).trans (decodeTrap_eq_trap rfl hw), fun q h => ⟨_, emit_ok _ _ h, ?_⟩,
    fun q h => ⟨_, emit_fail _ _ h, ?_⟩, fun h => ⟨_, emit_wait _ _ h, ?_⟩⟩
  · exact ⟨linkedOnly_of_trapEntry rfl rfl rfl rfl, rfl, rfl, rfl, rfl, rfl, rfl⟩
  · exact ⟨linkedOnly_of_trapEntry rfl rfl rfl rfl, rfl, rfl, rfl, rfl, rfl, rfl⟩
  · exact ⟨linkedOnly_of_trapEntry rfl rfl rfl rfl, ⟨rfl, rfl, rfl⟩, rfl, rfl, rfl⟩

end Sys2Proof.Machine
end

section
/-! The operate instructions of spec/41_operate.md: what ADD, AND and NOT write (R120, R121, R123, R124, R126; O9,
O10, O12, O13, O15), the integer law of ADD (R122; O11) and the agreement of the two modes (R125; O14). -/

namespace Sys2Proof.Machine

/-! ### ADD, AND and NOT -/

/-- `WriteDR` writes DR and COND, and has the frame of an instruction that does no more (R14, R15, R23). -/
theorem wroteDR_writeDR (s : State) (d : Reg) (v : Word) : WroteDR d v s (s.writeDR d v) := by
  refine ⟨?_, fun r hr => ?_, cc_eq_ite v, rfl, fun _ => rfl, ⟨rfl, rfl, rfl⟩, ⟨rfl, rfl, rfl⟩⟩
  · rw [State.reg_writeDR, if_pos rfl]
  · rw [State.reg_writeDR, if_neg hr]

/-- Settles O9, by the opcode map and the one write of the meaning. -/
theorem addRegisterWritesSum : Obligations.AddRegisterWritesSum := by
  unfold Obligations.AddRegisterWritesSum
  exact fun ir s hop h5 => ⟨decode_addReg hop h5, _, exec_addReg .., wroteDR_writeDR ..⟩

/-- Settles O10, by the opcode map and the one write of the meaning. -/
theorem addImmediateWritesSum : Obligations.AddImmediateWritesSum := by
  unfold Obligations.AddImmediateWritesSum
  exact fun ir s hop h5 => ⟨decode_addImm hop h5, _, exec_addImm .., wroteDR_writeDR ..⟩

/-- Settles O12, by the opcode map and the one write of the meaning. -/
theorem andRegisterWritesConjunction : Obligations.AndRegisterWritesConjunction := by
  unfold Obligations.AndRegisterWritesConjunction
  exact fun ir s hop h5 => ⟨decode_andReg hop h5, _, exec_andReg .., wroteDR_writeDR ..⟩

/-- Settles O13, by the opcode map and the one write of the meaning. -/
theorem andImmediateWritesConjunction : Obligations.AndImmediateWritesConjunction := by
  unfold Obligations.AndImmediateWritesConjunction
  exact fun ir s hop h5 => ⟨decode_andImm hop h5, _, exec_andImm .., wroteDR_writeDR ..⟩

/-- Settles O15, by the opcode map, which does not look at the low six bits, and the one write of the meaning. -/
theorem notWritesComplement : Obligations.NotWritesComplement := by
  unfold Obligations.NotWritesComplement
  exact fun ir s hop => ⟨decode_not hop, _, exec_not .., wroteDR_writeDR ..⟩

/-! ### The integer law of ADD (R122) -/

/-- COND tells the sign and zero-ness of the word it was set for, both ways (R15, R29). -/
theorem cc_eq_iff_toInt (v : Word) :
    (cc v = 0b010#3 ↔ v.toInt = 0) ∧ (cc v = 0b100#3 ↔ v.toInt < 0) ∧ (cc v = 0b001#3 ↔ 0 < v.toInt) := by
  obtain hneg | hzero | hpos := lt_trichotomy v.toInt 0
  · simp [cc_of_toInt_neg hneg, condN, hneg, hneg.ne, hneg.le]
  · obtain rfl : v = 0x0000#16 := BitVec.eq_of_toInt_eq hzero
    simp [cc_zero, condZ]
  · simp [cc_of_toInt_pos hpos, condP, hpos, hpos.ne', hpos.le]

/-- Settles O11: DR and COND after the write, then the library's two readings of a sum of words. -/
theorem addObeysTheIntegerLaw : Obligations.AddObeysTheIntegerLaw := by
  unfold Obligations.AddObeysTheIntegerLaw
  intro s d a b
  have hdr : (s.writeDR d (s.reg a + s.reg b)).reg d = s.reg a + s.reg b := by rw [State.reg_writeDR, if_pos rfl]
  refine ⟨_, exec_addReg .., ?_⟩
  rw [hdr, State.writeDR_cond]
  exact ⟨BitVec.toNat_add _ _, BitVec.toInt_add _ _, BitVec.le_toInt _, Int.le_of_lt_add_one BitVec.toInt_lt,
    cc_eq_iff_toInt _⟩

/-! ### The two modes (R125) -/

section Modes

variable {s : State} {b : Reg} {k : BitVec 5}

/-- ADD in the two modes is one meaning where SR2 holds the immediate. -/
theorem exec_addImm_eq_exec_addReg (d a : Reg) (h : s.reg b = sext k) :
    exec (.addImm d a k) s = exec (.addReg d a b) s := by
  rw [exec_addImm, exec_addReg, h]

/-- AND in the two modes is one meaning where SR2 holds the immediate. -/
theorem exec_andImm_eq_exec_andReg (d a : Reg) (h : s.reg b = sext k) :
    exec (.andImm d a k) s = exec (.andReg d a b) s := by
  rw [exec_andImm, exec_andReg, h]

end Modes

/-- Settles O14: the two modes answer the same state, not only the same DR and COND. -/
theorem immediateAndRegisterModesAgree : Obligations.ImmediateAndRegisterModesAgree := by
  unfold Obligations.ImmediateAndRegisterModesAgree
  intro s d a b k h
  rw [exec_addImm_eq_exec_addReg d a h, exec_andImm_eq_exec_andReg d a h]
  exact ⟨⟨_, _, exec_addReg .., exec_addReg .., rfl, rfl⟩, ⟨_, _, exec_andReg .., exec_andReg .., rfl, rfl⟩⟩

end Sys2Proof.Machine
end

section
/-! The control transfers of spec/42_control.md: where BR, JMP, JSR and JSRR go, and that a link write apart they
change nothing but the PC (R140, R142, R144, R145; O16, O18, O19, O20). -/

namespace Sys2Proof.Machine

/-- Only the PC changed, and it is `target`. -/
def JumpedTo (target : Word) (s t : State) : Prop :=
  t.pc = target ∧ SameRegs s t ∧ t.cond = s.cond ∧ SameMem s t ∧ SameStatus s t ∧ SameConsole s t

/-- Only R7 and the PC changed: R7 holds the old PC, and the PC is `target`. -/
def LinkedAndJumpedTo (target : Word) (s t : State) : Prop :=
  t.reg .r7 = s.pc ∧ t.pc = target ∧ SameRegsBut .r7 s t ∧ t.cond = s.cond ∧ SameMem s t ∧ SameStatus s t ∧
    SameConsole s t

theorem jumpedTo_writePc (s : State) (target : Word) : JumpedTo target s (s.writePc target) :=
  ⟨rfl, fun _ => rfl, rfl, fun _ => rfl, ⟨rfl, rfl, rfl⟩, ⟨rfl, rfl, rfl⟩⟩

/-- A link write keeps every register but R7, and the jump after it keeps R7 (R24). -/
theorem linkedAndJumpedTo_linkPc_writePc (s : State) (target : Word) :
    LinkedAndJumpedTo target s (s.linkPc.writePc target) := by
  refine ⟨?_, rfl, fun r hr => ?_, rfl, fun _ => rfl, ⟨rfl, rfl, rfl⟩, ⟨rfl, rfl, rfl⟩⟩
  · rw [State.reg_writePc, State.reg_linkPc, if_pos rfl]
  · rw [State.reg_writePc, State.reg_linkPc, if_neg hr]

/-- BR is one jump either way: a branch not taken goes to the PC it found (R140). -/
theorem exec_br_eq_writePc (s : State) (m : BitVec 3) (off : BitVec 9) :
    exec (.br m off) s =
      .next (s.writePc (if m &&& s.cond = 0b000#3 then s.pc else s.pc + sext off)) := by
  by_cases hm : m &&& s.cond = 0b000#3
  · rw [exec_br_of_branchTaken off (show branchTaken m s.cond = false from decide_eq_false (not_not.mpr hm)),
      if_pos hm]
    rfl
  · rw [exec_br_of_branchTaken off (show branchTaken m s.cond = true from decide_eq_true hm), if_neg hm]
    rfl

/-- Settles O16: taken or not, BR is one write of the PC. -/
theorem branchJumpsWhenMaskMeetsCond : Obligations.BranchJumpsWhenMaskMeetsCond := by
  unfold Obligations.BranchJumpsWhenMaskMeetsCond
  exact fun ir s hop => ⟨decode_br hop, _, exec_br_eq_writePc .., jumpedTo_writePc ..⟩

/-- Settles O18, by the opcode map and the one write of the PC. -/
theorem jumpGoesToBaseRegister : Obligations.JumpGoesToBaseRegister := by
  unfold Obligations.JumpGoesToBaseRegister
  exact fun ir s hop => ⟨decode_jmp hop, _, exec_jmp .., jumpedTo_writePc ..⟩

/-- Settles O19: the target is computed from the PC, which the link write leaves. -/
theorem jsrLinksAndJumpsRelative : Obligations.JsrLinksAndJumpsRelative := by
  unfold Obligations.JsrLinksAndJumpsRelative
  exact fun ir s hop h11 => ⟨decode_jsr hop h11, _, exec_jsr .., linkedAndJumpedTo_linkPc_writePc ..⟩

/-- Settles O20: the target is read in the state before the link write, so BaseR = R7 needs no case of its own. -/
theorem jsrrLinksAndJumpsToOldBase : Obligations.JsrrLinksAndJumpsToOldBase := by
  unfold Obligations.JsrrLinksAndJumpsToOldBase
  exact fun ir s hop h11 => ⟨decode_jsrr hop h11, _, exec_jsrr .., linkedAndJumpedTo_linkPc_writePc ..⟩

end Sys2Proof.Machine
end

section
/-! The loads, the stores and LEA of spec/43_loadstore.md: a load or LEA is one `WriteDR` and a store one memory
write, both computed in the state the instruction found (R160, R163, R166 to R172; O22 to O28). -/

namespace Sys2Proof.Machine

/-! ### Loads and LEA -/

/-- Settles O22, by the opcode map and the one write of the meaning. -/
theorem ldLoadsPcRelative : Obligations.LdLoadsPcRelative := by
  unfold Obligations.LdLoadsPcRelative
  exact fun ir s hop => ⟨decode_ld hop, _, exec_ld .., wroteDR_writeDR ..⟩

/-- Settles O24: the address is read in the state before the write, so DR = BaseR needs no case of its own. -/
theorem ldrLoadsBaseOffset : Obligations.LdrLoadsBaseOffset := by
  unfold Obligations.LdrLoadsBaseOffset
  exact fun ir s hop => ⟨decode_ldr hop, _, exec_ldr .., wroteDR_writeDR ..⟩

/-- Settles O26: the word written is read at the address the pointer word holds. -/
theorem ldiLoadsThroughPointer : Obligations.LdiLoadsThroughPointer := by
  unfold Obligations.LdiLoadsThroughPointer
  exact fun ir s hop => ⟨decode_ldi hop, _, exec_ldi .., wroteDR_writeDR ..⟩

/-- Settles O28: the word written is the address itself, so no memory is read. -/
theorem leaWritesAddress : Obligations.LeaWritesAddress := by
  unfold Obligations.LeaWritesAddress
  exact fun ir s hop => ⟨decode_lea hop, _, exec_lea .., wroteDR_writeDR ..⟩

/-! ### Stores -/

/-- `MemWrite` writes one word, and has the frame of an instruction that does no more (R12, R30, R53). -/
theorem storedAt_memWrite (s : State) (ea v : Word) : StoredAt ea v s (s.memWrite ea v) := by
  refine ⟨?_, fun a ha => ?_, fun _ => rfl, rfl, rfl, ⟨rfl, rfl, rfl⟩, ⟨rfl, rfl, rfl⟩⟩
  · rw [State.memRead_memWrite, if_pos rfl]
  · rw [State.memRead_memWrite, if_neg ha]

/-- Settles O23, by the opcode map and the one memory write of the meaning. -/
theorem stStoresPcRelative : Obligations.StStoresPcRelative := by
  unfold Obligations.StStoresPcRelative
  exact fun ir s hop => ⟨decode_st hop, _, exec_st .., storedAt_memWrite ..⟩

/-- Settles O25, by the opcode map and the one memory write of the meaning. -/
theorem strStoresBaseOffset : Obligations.StrStoresBaseOffset := by
  unfold Obligations.StrStoresBaseOffset
  exact fun ir s hop => ⟨decode_str hop, _, exec_str .., storedAt_memWrite ..⟩

/-- Settles O27: the pointer is read in the state before the write, so a pointer to itself needs no case of its
own. -/
theorem stiStoresThroughPointer : Obligations.StiStoresThroughPointer := by
  unfold Obligations.StiStoresThroughPointer
  exact fun ir s hop => ⟨decode_sti hop, _, exec_sti .., storedAt_memWrite ..⟩

end Sys2Proof.Machine
end

section
/-! The opcodes that end the run, RTI and RES of spec/44_terminal.md: one notice and one halt, and no step after it
(R190, R191, R192, R203; O31). -/

namespace Sys2Proof.Machine

/-! ### No step leaves the end of a run (R192) -/

theorem step_halt (s : State) (c : HaltCause) : step (s.halt c) = .next (s.halt c) := step_of_not_running nofun

theorem step_raiseFault (s : State) (c : FaultCause) : step (s.raiseFault c) = .next (s.raiseFault c) :=
  step_of_not_running nofun

/-! ### RTI and RES -/

/-- Settles O31: both opcodes are one notice and one halt, so the host's answer to the notice decides. -/
theorem rtiAndResEndTheRun : Obligations.RtiAndResEndTheRun := by
  unfold Obligations.RtiAndResEndTheRun
  intro ir s i op cause hi
  have hreserved : decode ir = i ∧
      exec i s = emit (.notice (.unimplementedOpcode op)) s (fun t => .next (t.halt cause)) := by
    obtain ⟨hop, rfl, rfl, rfl⟩ | ⟨hop, rfl, rfl, rfl⟩ := hi
    · exact ⟨decode_rti hop, exec_rti s⟩
    · exact ⟨decode_res hop, exec_res s⟩
  obtain ⟨hdecode, hexec⟩ := hreserved
  rw [hexec]
  refine ⟨hdecode, fun rest h => ⟨_, emit_ok _ _ h, ?_⟩, fun rest h => ⟨_, emit_fail _ _ h, ?_⟩, emit_wait _ _⟩
  · exact ⟨rfl, rfl, rfl, rfl, rfl, rfl, fun _ => rfl, rfl, rfl, fun _ => rfl, step_halt ..⟩
  · exact ⟨rfl, rfl, rfl, ⟨rfl, rfl, rfl⟩, fun _ => rfl, rfl, rfl, fun _ => rfl, step_raiseFault ..⟩

end Sys2Proof.Machine
end

section
/-! The scans of spec/45_trap.md: PUTS and PUTSP as far as they go, where a terminator ends them, where the host
stops them, and where nothing does (R203, R208, R209, R212; O34, O35, O37, O38, O39). -/

namespace Sys2Proof.Machine

/-! ### The vector selects the service (R200) -/

/-- A service's word has two fields, the opcode and the vector. -/
theorem decode_of_vector {ir : Word} {vec : Byte} {i : Instr} (hw : i.wellFormed = true)
    (hi : i.fields = [⟨12, 4, 0xF#4⟩, ⟨0, 8, vec⟩]) (hop : getBits ir 12 4 = 0xF#4)
    (hvec : getBits ir 0 8 = vec) : decode ir = i :=
  decode_eq_of_holds hw (by rw [hi, holds_cons, holds_cons]; exact ⟨hop, hvec, holds_nil ir⟩)

/-! ### The state a TRAP without an R0 write leaves -/

/-- Console transactions after trap entry leave everything else (R210). -/
theorem linkedOnly_afterConsole (s : State) (es : List Event) (p : Answers CinAnswer) (q : Answers CoutAnswer) :
    LinkedOnly s (s.trapEntry.afterConsole es p q) :=
  linkedOnly_of_trapEntry rfl rfl rfl rfl

/-- An accepted event after others: the history gets both (R203). -/
theorem emit_afterConsole_ok {s : State} {es : List Event} {p : Answers CinAnswer} {q rest : Answers CoutAnswer}
    (e : Event) (k : State → Result) (h : q.take = some (.ok, rest)) :
    emit e (s.afterConsole es p q) k = k (s.afterConsole (es ++ [e]) p rest) :=
  (emit_ok e k h).trans (congrArg k (s.afterConsole_afterConsole es p q [e] p rest))

/-- The TRAP that answers `r` completes with `es` written and the answers `q` left, and the run goes on (R201). -/
def CompletesAfter (es : List Event) (q : Answers CoutAnswer) (s : State) (r : Result) : Prop :=
  ∃ t, r = .next t ∧ LinkedOnly s t ∧ t.output = s.output ++ es ∧ t.cout = q ∧ t.cin = s.cin ∧ SameStatus s t

theorem completesAfter_of_eq {es : List Event} {q : Answers CoutAnswer} {s : State} {r : Result}
    (h : r = .next (s.trapEntry.afterConsole es s.cin q)) : CompletesAfter es q s r :=
  ⟨_, h, linkedOnly_afterConsole .., rfl, rfl, rfl, rfl, rfl, rfl⟩

/-- The TRAP that answers `r` stops with `es` written, at an event to which the host answers Fail or nothing as the
next of `q` (R203). -/
def StopsAfter (es : List Event) (q : Answers CoutAnswer) (s : State) (r : Result) : Prop :=
  (∀ rest, q.take = some (.fail, rest) → ∃ t, r = .next t ∧ LinkedOnly s t ∧ t.output = s.output ++ es ∧
    t.cout = rest ∧ t.cin = s.cin ∧ FaultedOutput s t) ∧
  (q.take = none → ∃ u, r = .fault (.outputWait u) ∧ LinkedOnly s u ∧ u.output = s.output ++ es ∧ u.cout = q ∧
    u.cin = s.cin ∧ SameStatus s u)

/-- It is enough that an event comes next where the host does not accept it. -/
theorem stopsAfter_of_emit {es : List Event} {q : Answers CoutAnswer} {s : State} {r : Result}
    (h : (∀ x, q.take ≠ some (.ok, x)) → ∃ e k, r = emit e (s.trapEntry.afterConsole es s.cin q) k) :
    StopsAfter es q s r := by
  refine ⟨fun rest hfail => ?_, fun hnone => ?_⟩
  · obtain ⟨e, k, rfl⟩ := h (by rw [hfail]; nofun)
    exact ⟨_, emit_fail e k hfail, linkedOnly_of_trapEntry rfl rfl rfl rfl, rfl, rfl, rfl, rfl, rfl, rfl⟩
  · obtain ⟨e, k, rfl⟩ := h (by rw [hnone]; nofun)
    exact ⟨_, emit_wait e k hnone, linkedOnly_afterConsole .., rfl, rfl, rfl, rfl, rfl, rfl⟩

/-! ### The host's answers to many events -/

theorem oks_succ_eq_some {n : Nat} {q r : Answers CoutAnswer} (h : oks (n + 1) q = some r) :
    ∃ p, oks n q = some p ∧ p.take = some (.ok, r) := by
  rw [oks_add, Option.bind_eq_some_iff] at h
  obtain ⟨p, hp, hr⟩ := h
  refine ⟨p, hp, ?_⟩
  simp only [oks] at hr
  split at hr
  · rename_i rest htake
    rw [htake, Option.some.inj hr]
  all_goals cases hr

theorem oks_always_ok (n : Nat) : oks n ⟨[], some .ok⟩ = some ⟨[], some .ok⟩ := by
  induction n with
  | zero => rfl
  | succ n ih => exact ih

/-- Past its script the host has one answer for ever, so where it accepts one event there it accepts any number. -/
theorem oks_isSome_of_script_length_lt {m : Nat} {q : Answers CoutAnswer} (hm : q.script.length < m)
    (h : (oks m q).isSome = true) (n : Nat) : (oks n q).isSome = true := by
  obtain ⟨r, hr⟩ := Option.isSome_iff_exists.mp h
  obtain ⟨hle, -⟩ | ⟨-, rfl⟩ := oks_shape m q r hr
  · omega
  · have hsum : oks (n + m) q = some ⟨[], some .ok⟩ := by
      rw [Nat.add_comm, oks_add, hr, Option.bind_some, oks_always_ok]
    rw [oks_add, Option.bind_eq_some_iff] at hsum
    obtain ⟨p, hp, -⟩ := hsum
    rw [hp, Option.isSome_some]

/-! ### The addresses of a scan -/

/-- One lap of the scan is every address (R209). -/
theorem exists_scanAddr_eq (s : State) (a : Word) : ∃ j, j < Config.memSize ∧ scanAddr s j = a :=
  ⟨(a - s.reg .r0).toNat, (a - s.reg .r0).isLt, by
    rw [scanAddr, BitVec.ofNat_toNat, BitVec.setWidth_eq, BitVec.add_comm, BitVec.sub_add_cancel]⟩

theorem lt_scanFuel_of_lt_memSize {s : State} {k : Nat} (h : k < Config.memSize) : k < scanFuel s := by
  unfold scanFuel; omega

/-- The first word at which a scan's condition fails lies within the first lap, so within the bound. -/
theorem lt_scanFuel_of_first {s : State} {P : Word → Prop} {k : Nat}
    (hlt : ∀ j, j < k → P (s.memRead (scanAddr s j))) (hk : ¬ P (s.memRead (scanAddr s k))) : k < scanFuel s := by
  obtain ⟨j, hj, haddr⟩ := exists_scanAddr_eq s (scanAddr s k)
  by_contra hle
  have hjk : j < k := (lt_scanFuel_of_lt_memSize hj).trans_le (not_lt.mp hle)
  exact hk (haddr ▸ hlt j hjk)

/-- The bound on the scan is past the host's script. -/
theorem script_length_lt_scanFuel (s : State) : s.cout.script.length < scanFuel s := by
  unfold scanFuel Config.memSize; omega

/-- The first event that the host does not accept lies within the bound. -/
theorem lt_scanFuel_of_oks {s : State} {n : Nat} {q : Answers CoutAnswer} (h : oks n s.cout = some q)
    (hq : ∀ x, q.take ≠ some (.ok, x)) : n < scanFuel s :=
  (oks_bound h hq).trans_lt (script_length_lt_scanFuel s)

/-! ### One word of a scan -/

/-- A word that does not end PUTSP's scan (R212). -/
abbrev NoZeroByte (w : Word) : Prop := lowByte w ≠ 0x00#8 ∧ highByte w ≠ 0x00#8

section OneWord

variable {s : State} {a : Word} (f : Nat)

theorem putsFrom_of_eq_zero (h : s.memRead a = 0x0000#16) : putsFrom (f + 1) a s = .next s := by
  rw [putsFrom, if_pos h]

theorem putsFrom_of_ne_zero (h : s.memRead a ≠ 0x0000#16) :
    putsFrom (f + 1) a s = emit (.char (lowByte (s.memRead a))) s (fun t => putsFrom f (a + 0x0001#16) t) := by
  rw [putsFrom, if_neg h, consoleWrite]

theorem putspFrom_of_low_eq_zero (h : lowByte (s.memRead a) = 0x00#8) : putspFrom (f + 1) a s = .next s := by
  rw [putspFrom, if_pos h]

theorem putspFrom_of_low_ne_zero (h : lowByte (s.memRead a) ≠ 0x00#8) :
    putspFrom (f + 1) a s = emit (.char (lowByte (s.memRead a))) s (fun t =>
      if highByte (s.memRead a) = 0x00#8 then .next t
      else emit (.char (highByte (s.memRead a))) t (fun u => putspFrom f (a + 0x0001#16) u)) := by
  rw [putspFrom, if_neg h]; rfl

end OneWord

/-! ### The scan from trap entry to word number `k` -/

/-- PUTS's first `k` words, for any bound on the scan that reaches past them (R208). -/
theorem putsFrom_trapEntry {s : State} {k : Nat} {q : Answers CoutAnswer} (f : Nat)
    (hz : ∀ j, j < k → s.memRead (scanAddr s j) ≠ 0x0000#16) (hok : oks k s.cout = some q) :
    putsFrom (f + k) (s.reg .r0) s.trapEntry =
      putsFrom f (scanAddr s k) (s.trapEntry.afterConsole (putsChars s k) s.cin q) :=
  puts_run f k (s.reg .r0) s.trapEntry q hz hok

/-- PUTSP's first `k` words (R212). -/
theorem putspFrom_trapEntry {s : State} {k : Nat} {q : Answers CoutAnswer} (f : Nat)
    (hz : ∀ j, j < k → NoZeroByte (s.memRead (scanAddr s j))) (hok : oks (2 * k) s.cout = some q) :
    putspFrom (f + k) (s.reg .r0) s.trapEntry =
      putspFrom f (scanAddr s k) (s.trapEntry.afterConsole (putspChars s k) s.cin q) :=
  putsp_run f k (s.reg .r0) s.trapEntry q hz hok

/-- A PUTS whose first `k` words are written comes to word number `k`. -/
theorem exec_puts_reaches {s : State} {k : Nat} {q : Answers CoutAnswer} (hk : k < scanFuel s)
    (hz : ∀ j, j < k → s.memRead (scanAddr s j) ≠ 0x0000#16) (hok : oks k s.cout = some q) :
    ∃ f, exec .puts s = putsFrom (f + 1) (scanAddr s k) (s.trapEntry.afterConsole (putsChars s k) s.cin q) := by
  obtain ⟨f, hf⟩ := Nat.exists_eq_add_of_lt hk
  refine ⟨f, ?_⟩
  rw [exec_puts, hf, show k + f + 1 = f + 1 + k by omega, putsFrom_trapEntry (f + 1) hz hok]

/-- A PUTSP whose first `k` words are written comes to word number `k`. -/
theorem exec_putsp_reaches {s : State} {k : Nat} {q : Answers CoutAnswer} (hk : k < scanFuel s)
    (hz : ∀ j, j < k → NoZeroByte (s.memRead (scanAddr s j))) (hok : oks (2 * k) s.cout = some q) :
    ∃ f, exec .putsp s = putspFrom (f + 1) (scanAddr s k) (s.trapEntry.afterConsole (putspChars s k) s.cin q) := by
  obtain ⟨f, hf⟩ := Nat.exists_eq_add_of_lt hk
  refine ⟨f, ?_⟩
  rw [exec_putsp, hf, show k + f + 1 = f + 1 + k by omega, putspFrom_trapEntry (f + 1) hz hok]

/-! ### PUTS -/

/-- Settles O34: the scan comes to the first zero word within one lap, and ends there. -/
theorem putsWritesTheString : Obligations.PutsWritesTheString := by
  unfold Obligations.PutsWritesTheString
  refine fun ir s hop hvec => ⟨decode_of_vector rfl rfl hop hvec, fun k rest hz hk hok => ?_⟩
  have hlt : k < scanFuel s := lt_scanFuel_of_first (P := (· ≠ 0x0000#16)) hz (not_not.mpr hk)
  obtain ⟨f, hf⟩ := exec_puts_reaches hlt hz hok
  exact completesAfter_of_eq (hf.trans (putsFrom_of_eq_zero f hk))

/-- Settles O35: the scan comes to the character that the host does not accept. -/
theorem putsStopsAtAnUnacceptedCharacter : Obligations.PutsStopsAtAnUnacceptedCharacter := by
  unfold Obligations.PutsStopsAtAnUnacceptedCharacter
  intro s k q hz hok
  refine stopsAfter_of_emit fun hq => ?_
  obtain ⟨f, hf⟩ := exec_puts_reaches (lt_scanFuel_of_oks hok hq) (fun j hj => hz j hj.le) hok
  exact ⟨_, _, hf.trans (putsFrom_of_ne_zero f (hz k le_rfl))⟩

/-! ### PUTSP -/

/-- The characters of `k` words and of the next one's low byte (R212). -/
def putspCharsLow (s : State) (k : Nat) : List Event :=
  putspChars s k ++ [.char (lowByte (s.memRead (scanAddr s k)))]

/-- A PUTSP that writes those comes to the high byte of word number `k`. -/
theorem exec_putsp_reaches_high {s : State} {k : Nat} {q : Answers CoutAnswer} (hk : k < scanFuel s)
    (hz : ∀ j, j < k → NoZeroByte (s.memRead (scanAddr s j))) (hlow : lowByte (s.memRead (scanAddr s k)) ≠ 0x00#8)
    (hok : oks (2 * k + 1) s.cout = some q) :
    ∃ c, exec .putsp s =
      if highByte (s.memRead (scanAddr s k)) = 0x00#8 then
        .next (s.trapEntry.afterConsole (putspCharsLow s k) s.cin q)
      else
        emit (.char (highByte (s.memRead (scanAddr s k)))) (s.trapEntry.afterConsole (putspCharsLow s k) s.cin q) c := by
  obtain ⟨p, hp, htake⟩ := oks_succ_eq_some hok
  obtain ⟨f, hf⟩ := exec_putsp_reaches hk hz hp
  exact ⟨_, hf.trans ((putspFrom_of_low_ne_zero (s := s.trapEntry.afterConsole _ _ _) f hlow).trans
    (emit_afterConsole_ok _ _ htake))⟩

/-- Settles O37: the scan comes to the first zero byte within one lap, and ends there. -/
theorem putspWritesThePackedString : Obligations.PutspWritesThePackedString := by
  unfold Obligations.PutspWritesThePackedString
  refine fun ir s hop hvec => ⟨decode_of_vector rfl rfl hop hvec, fun k rest hz => ?_⟩
  simp only [List.append_assoc]
  have hlt : ¬ NoZeroByte (s.memRead (scanAddr s k)) → k < scanFuel s := lt_scanFuel_of_first hz
  refine ⟨fun hlow hok => ?_, fun hlow hhigh hok => ?_⟩
  · obtain ⟨f, hf⟩ := exec_putsp_reaches (hlt fun h => h.1 hlow) hz hok
    exact completesAfter_of_eq (hf.trans (putspFrom_of_low_eq_zero f hlow))
  · obtain ⟨c, hc⟩ := exec_putsp_reaches_high (hlt fun h => h.2 hhigh) hz hlow hok
    exact completesAfter_of_eq (hc.trans (if_pos hhigh))

/-- Settles O38: the scan comes to the byte that the host does not accept. -/
theorem putspStopsAtAnUnacceptedCharacter : Obligations.PutspStopsAtAnUnacceptedCharacter := by
  unfold Obligations.PutspStopsAtAnUnacceptedCharacter
  intro s k q hz hlow
  simp only [List.append_assoc]
  refine ⟨fun hok => stopsAfter_of_emit fun hq => ?_, fun hhigh hok => stopsAfter_of_emit fun hq => ?_⟩
  · have hlt : 2 * k < scanFuel s := lt_scanFuel_of_oks hok hq
    obtain ⟨f, hf⟩ := exec_putsp_reaches (by omega) hz hok
    exact ⟨_, _, hf.trans (putspFrom_of_low_ne_zero f hlow)⟩
  · have hlt : 2 * k + 1 < scanFuel s := lt_scanFuel_of_oks hok hq
    obtain ⟨c, hc⟩ := exec_putsp_reaches_high (by omega) hz hlow hok
    exact ⟨_, c, hc.trans (if_neg hhigh)⟩

/-! ### A scan without an end (R209) -/

theorem scanReached_afterConsole {s : State} {m : Nat} {es : List Event} {q : Answers CoutAnswer}
    (h : oks m s.cout = some q) : ScanReached m es s (s.trapEntry.afterConsole es s.cin q) :=
  ⟨linkedOnly_afterConsole .., rfl, h, rfl, rfl, rfl, rfl⟩

/-- What holds of every word of one lap holds of every word. -/
theorem forall_memRead_of_scan {s : State} {P : Word → Prop}
    (h : ∀ j, j < scanFuel s → P (s.memRead (scanAddr s j))) (a : Word) : P (s.memRead a) := by
  obtain ⟨j, hj, rfl⟩ := exists_scanAddr_eq s a
  exact h j (lt_scanFuel_of_lt_memSize hj)

/-- A scan never ends exactly where `P` holds, if `P` follows from its not having ended within the bound `f`, and if
under `P` the scan of any `n` words is still going on, at `next n` and in a state that `Reached n` describes. -/
theorem neverEnds_iff_and_reached {scan : Nat → Result} {next : Nat → Word} {Reached : Nat → State → Prop}
    {P : Prop} {f : Nat} (hP : ∀ u a, scan f = .fault (.neverEnds u a) → P)
    (hscan : P → ∀ n, ∃ v, scan n = .fault (.neverEnds v (next n)) ∧ Reached n v) :
    ((∃ u a, scan f = .fault (.neverEnds u a)) ↔ P) ∧
    ∀ u a, scan f = .fault (.neverEnds u a) →
      a = next f ∧ Reached f u ∧ ∀ n, ∃ v, scan n = .fault (.neverEnds v (next n)) ∧ Reached n v := by
  refine ⟨⟨fun ⟨u, a, h⟩ => hP u a h, fun h => ?_⟩, fun u a h => ?_⟩
  · obtain ⟨v, hv, -⟩ := hscan h f
    exact ⟨v, next f, hv⟩
  · have hall := hscan (hP u a h)
    obtain ⟨v, hv, hreached⟩ := hall f
    cases h.symm.trans hv
    exact ⟨rfl, hreached, hall⟩

/-- Where PUTS never ends, no word is zero and the host accepts every character. -/
theorem no_zero_word_of_puts_neverEnds {s u : State} {a : Word} (h : exec .puts s = .fault (.neverEnds u a)) :
    (∀ a : Word, s.memRead a ≠ 0x0000#16) ∧ ∀ n, (oks n s.cout).isSome = true := by
  obtain ⟨hz, hok⟩ := puts_neverEnds (scanFuel s) (s.reg .r0) s.trapEntry u a h
  exact ⟨forall_memRead_of_scan (P := (· ≠ 0x0000#16)) hz,
    oks_isSome_of_script_length_lt (script_length_lt_scanFuel s) hok⟩

/-- Where PUTSP never ends, no byte is zero and the host accepts every character. -/
theorem no_zero_byte_of_putsp_neverEnds {s u : State} {a : Word} (h : exec .putsp s = .fault (.neverEnds u a)) :
    (∀ a : Word, NoZeroByte (s.memRead a)) ∧ ∀ n, (oks n s.cout).isSome = true := by
  obtain ⟨hz, hok⟩ := putsp_neverEnds (scanFuel s) (s.reg .r0) s.trapEntry u a h
  have hlt : s.cout.script.length < 2 * scanFuel s := by
    have hscript := script_length_lt_scanFuel s
    omega
  exact ⟨forall_memRead_of_scan (P := NoZeroByte) hz, oks_isSome_of_script_length_lt hlt hok⟩

/-- A scan over words that do not end it, every character accepted, is still going on, whatever the bound. -/
theorem putsFrom_neverEnds {s : State} (hz : ∀ a : Word, s.memRead a ≠ 0x0000#16)
    (hok : ∀ n, (oks n s.cout).isSome = true) (n : Nat) :
    ∃ v, putsFrom n (s.reg .r0) s.trapEntry = .fault (.neverEnds v (scanAddr s n)) ∧
      ScanReached n (putsChars s n) s v := by
  obtain ⟨q, hq⟩ := Option.isSome_iff_exists.mp (hok n)
  have hrun := putsFrom_trapEntry 0 (fun j _ => hz (scanAddr s j)) hq
  rw [Nat.zero_add] at hrun
  exact ⟨_, hrun, scanReached_afterConsole hq⟩

theorem putspFrom_neverEnds {s : State} (hz : ∀ a : Word, NoZeroByte (s.memRead a))
    (hok : ∀ n, (oks n s.cout).isSome = true) (n : Nat) :
    ∃ v, putspFrom n (s.reg .r0) s.trapEntry = .fault (.neverEnds v (scanAddr s n)) ∧
      ScanReached (2 * n) (putspChars s n) s v := by
  obtain ⟨q, hq⟩ := Option.isSome_iff_exists.mp (hok (2 * n))
  have hrun := putspFrom_trapEntry 0 (fun j _ => hz (scanAddr s j)) hq
  rw [Nat.zero_add] at hrun
  exact ⟨_, hrun, scanReached_afterConsole hq⟩

/-- Settles O39: the bound on the scan covers one lap of memory past the host's script, so a scan still going on
there meets no terminator and no unaccepted character ever. -/
theorem scanNeverEndsExactlyWithoutTerminator : Obligations.ScanNeverEndsExactlyWithoutTerminator := by
  unfold Obligations.ScanNeverEndsExactlyWithoutTerminator
  intro s
  obtain ⟨hputs, hputs_reached⟩ := neverEnds_iff_and_reached
    (fun _ _ h => no_zero_word_of_puts_neverEnds (s := s) h) (fun h => putsFrom_neverEnds h.1 h.2)
  obtain ⟨hputsp, hputsp_reached⟩ := neverEnds_iff_and_reached
    (fun _ _ h => no_zero_byte_of_putsp_neverEnds (s := s) h) (fun h => putspFrom_neverEnds h.1 h.2)
  exact ⟨hputs, hputsp, hputs_reached, hputsp_reached⟩

end Sys2Proof.Machine
end

section
/-! The services of spec/45_trap.md that make a fixed number of console transactions, GETC, OUT, IN and HALT, by the
host's answers (R203 to R207, R211, R213; O32, O33, O36, O40), and the footprint of every TRAP (R210; O42). -/

namespace Sys2Proof.Machine

/-! ### The byte that GETC and IN store (R206, R211) -/

/-- The high byte is cleared (the spec's decision D6). -/
theorem zext8_eq_append (b : Byte) : zext8 b = 0x00#8 ++ b := by
  rw [zext8, BitVec.setWidth_eq_append (by decide)]; rfl

/-- Bit 15 is clear, so the flag is Z or P. -/
theorem cc_zext8 (b : Byte) : cc (zext8 b) = if b = 0x00#8 then 0b010#3 else 0b001#3 := by
  have hzero : zext8 b = 0x0000#16 ↔ b = 0x00#8 := by rw [zext8]; bv_omega
  have hbit : (zext8 b).getLsbD 15 = false := by
    rw [zext8, BitVec.getLsbD_setWidth, BitVec.getLsbD_of_ge b 15 (by decide), Bool.and_false]
  rw [cc_eq_ite, hbit]
  simp only [hzero, Bool.false_eq_true, if_false]

/-- R0 is outside the frame of a TRAP (R210). -/
theorem TrapFrame.writeDR_r0 {s t : State} (h : TrapFrame s t) (v : Word) : TrapFrame s (t.writeDR .r0 v) := by
  obtain ⟨h7, hregs, hpc, hmem⟩ := h
  refine ⟨?_, fun r hr7 hr0 => ?_, hpc, hmem⟩
  · rw [State.reg_writeDR, if_neg nofun, h7]
  · rw [State.reg_writeDR, if_neg hr0, hregs r hr7 hr0]

/-! ### The services, by the host's answers -/

/-- Settles O32, by the host's answer to the read. -/
theorem getcReadsOneByte : Obligations.GetcReadsOneByte := by
  unfold Obligations.GetcReadsOneByte
  intro ir s hop hvec
  rw [exec_getc]
  refine ⟨decode_of_vector rfl rfl hop hvec, fun b rest h => ⟨_, consoleRead_byte _ h, ?_⟩,
    fun rest h => ⟨_, consoleRead_end _ h, ?_⟩, fun h => ⟨_, consoleRead_wait _ h, ?_⟩⟩
  · have hlink : LinkedOnly s { s.trapEntry with cin := rest } := linkedOnly_of_trapEntry rfl rfl rfl rfl
    exact ⟨hlink.1.writeDR_r0 _, zext8_eq_append b, cc_zext8 b, rfl, rfl, rfl, rfl, rfl, rfl⟩
  · obtain ⟨hframe, hr0, hcond⟩ : LinkedOnly s (State.raiseFault { s.trapEntry with cin := rest } .inputEnd) :=
      linkedOnly_of_trapEntry rfl rfl rfl rfl
    exact ⟨hframe, hr0, hcond, rfl, rfl, rfl, rfl, rfl, rfl⟩
  · exact ⟨linkedOnly_of_trapEntry rfl rfl rfl rfl, ⟨rfl, rfl, rfl⟩, rfl, rfl, rfl⟩

/-- Settles O33, by the host's answer to the character. -/
theorem outWritesLowByte : Obligations.OutWritesLowByte := by
  unfold Obligations.OutWritesLowByte
  intro ir s hop hvec
  rw [exec_out]
  refine ⟨decode_of_vector rfl rfl hop hvec, fun rest h => ⟨_, emit_ok _ _ h, ?_⟩,
    fun rest h => ⟨_, emit_fail _ _ h, ?_⟩, fun h => ⟨_, emit_wait _ _ h, ?_⟩⟩
  · exact ⟨linkedOnly_of_trapEntry rfl rfl rfl rfl, rfl, rfl, rfl, rfl, rfl, rfl⟩
  · exact ⟨linkedOnly_of_trapEntry rfl rfl rfl rfl, rfl, rfl, rfl, rfl, rfl, rfl⟩
  · exact ⟨linkedOnly_of_trapEntry rfl rfl rfl rfl, ⟨rfl, rfl, rfl⟩, rfl, rfl, rfl⟩

section In

variable {s : State} {c1 : Answers CoutAnswer} (hprompt : s.cout.take = some (.ok, c1))

include hprompt

/-- IN after its prompt (R211). -/
theorem exec_inp_of_prompt : exec .inp s =
    consoleRead (s.trapEntry.afterConsole [.notice .inPrompt] s.cin c1)
      (fun b u => emit (.char b) u (fun v => .next (v.writeDR .r0 (zext8 b)))) :=
  (exec_inp s).trans (emit_ok _ _ hprompt)

/-- IN after its prompt and its read (R211). -/
theorem exec_inp_of_read {b : Byte} {i1 : Answers CinAnswer} (hread : s.cin.take = some (.byte b, i1)) :
    exec .inp s = emit (.char b) (s.trapEntry.afterConsole [.notice .inPrompt] i1 c1)
      (fun v => .next (v.writeDR .r0 (zext8 b))) :=
  (exec_inp_of_prompt hprompt).trans (consoleRead_byte _ hread)

end In

/-- Settles O36, by the host's answers to the prompt, the read and the echo (the spec's decision D19). -/
theorem inPromptsReadsEchoesStores : Obligations.InPromptsReadsEchoesStores := by
  unfold Obligations.InPromptsReadsEchoesStores
  intro ir s hop hvec
  refine ⟨decode_of_vector rfl rfl hop hvec, fun c1 hprompt => ⟨fun b i1 hread => ⟨fun c2 hecho => ?_,
    fun c2 hecho => ?_, fun hecho => ?_⟩, fun i1 hread => ?_, fun hread => ?_⟩, fun c1 hprompt => ?_,
    fun hprompt => ?_⟩
  · refine ⟨_, (exec_inp_of_read hprompt hread).trans (emit_afterConsole_ok _ _ hecho), ?_⟩
    exact ⟨(linkedOnly_afterConsole ..).1.writeDR_r0 _, zext8_eq_append b, cc_zext8 b, rfl, rfl, rfl, rfl, rfl, rfl⟩
  · refine ⟨_, (exec_inp_of_read hprompt hread).trans (emit_fail _ _ hecho), ?_⟩
    exact ⟨linkedOnly_of_trapEntry rfl rfl rfl rfl, rfl, rfl, rfl, rfl, rfl, rfl⟩
  · refine ⟨_, (exec_inp_of_read hprompt hread).trans (emit_wait _ _ hecho), ?_⟩
    exact ⟨linkedOnly_afterConsole .., rfl, rfl, rfl, rfl, rfl, rfl⟩
  · refine ⟨_, (exec_inp_of_prompt hprompt).trans (consoleRead_end _ hread), ?_⟩
    exact ⟨linkedOnly_of_trapEntry rfl rfl rfl rfl, rfl, rfl, rfl, rfl, rfl, rfl⟩
  · refine ⟨_, (exec_inp_of_prompt hprompt).trans (consoleRead_wait _ hread), ?_⟩
    exact ⟨linkedOnly_afterConsole .., rfl, rfl, rfl, rfl, rfl, rfl⟩
  · refine ⟨_, (exec_inp s).trans (emit_fail _ _ hprompt), ?_⟩
    exact ⟨linkedOnly_of_trapEntry rfl rfl rfl rfl, rfl, rfl, rfl, rfl, rfl, rfl⟩
  · refine ⟨_, (exec_inp s).trans (emit_wait _ _ hprompt), ?_⟩
    exact ⟨linkedOnly_of_trapEntry rfl rfl rfl rfl, ⟨rfl, rfl, rfl⟩, rfl, rfl, rfl⟩

/-- Settles O40, by the host's answer to the notice; neither end of the run is left again. -/
theorem haltEndsTheRun : Obligations.HaltEndsTheRun := by
  unfold Obligations.HaltEndsTheRun
  intro ir s hop hvec
  rw [exec_halt]
  refine ⟨decode_of_vector rfl rfl hop hvec, fun rest h => ⟨_, emit_ok _ _ h, ?_⟩,
    fun rest h => ⟨_, emit_fail _ _ h, ?_⟩, fun h => ⟨_, emit_wait _ _ h, ?_⟩⟩
  · exact ⟨linkedOnly_of_trapEntry rfl rfl rfl rfl, rfl, rfl, rfl, rfl, rfl, rfl, step_halt ..⟩
  · exact ⟨linkedOnly_of_trapEntry rfl rfl rfl rfl, rfl, rfl, rfl, ⟨rfl, rfl, rfl⟩, step_raiseFault ..⟩
  · exact ⟨linkedOnly_of_trapEntry rfl rfl rfl rfl, ⟨rfl, rfl, rfl⟩, rfl, rfl, rfl⟩

/-! ### The footprint of a TRAP (R210) -/

/-- The two services that read a byte, and GETC's silence on the output port (R206, R211). -/
theorem reads_of_getc_or_inp {i : Instr} {es : List Event} {q : Answers CoutAnswer} (s : State)
    (hi : i = .getc ∧ es = [] ∧ q = s.cout ∨ i = .inp) :
    ¬ (i ≠ .getc ∧ i ≠ .inp) ∧ (i = .getc → s.output ++ es = s.output ∧ q = s.cout) := by
  obtain ⟨rfl, rfl, rfl⟩ | rfl := hi
  · exact ⟨fun h => h.1 rfl, fun _ => ⟨List.append_nil _, rfl⟩⟩
  · exact ⟨fun h => h.2 rfl, nofun⟩

/-- What a TRAP that completes leaves of the registers after its link write, and of the console. -/
theorem Completed.footprint_of_isTrap {i : Instr} {s t : State} (h : Completed i s t) (hi : isTrap i = true) :
    (∀ r, (r = .r0 → i ≠ .getc ∧ i ≠ .inp) → t.reg r = s.trapEntry.reg r) ∧
    (i ≠ .getc → i ≠ .inp → t.cin = s.cin) ∧ (i = .getc → t.output = s.output ∧ t.cout = s.cout) := by
  cases h with
  | emitted _ hd => exact ⟨fun _ _ => rfl, fun _ _ => rfl, by rintro rfl; cases hd⟩
  | halted hi' => exact ⟨fun _ _ => rfl, fun _ _ => rfl, by rintro rfl; cases hi'⟩
  | outputFailed _ hg hp =>
    exact ⟨fun _ _ => rfl, fun _ hn => hp.resolve_right hn, fun h => absurd h hg⟩
  | byteStored hi' =>
    obtain ⟨hreads, hconsole⟩ := reads_of_getc_or_inp s hi'
    refine ⟨fun r hr => ?_, fun hg hn => absurd ⟨hg, hn⟩ hreads, hconsole⟩
    rw [State.reg_writeDR, if_neg (fun h0 => hreads (hr h0)), State.reg_afterConsole]
  | inputEnded hi' =>
    obtain ⟨hreads, hconsole⟩ := reads_of_getc_or_inp s hi'
    exact ⟨fun _ _ => rfl, fun hg hn => absurd ⟨hg, hn⟩ hreads, hconsole⟩
  | wroteDR _ ht => exact absurd (hi.symm.trans ht) (by decide)
  | stored hea => rw [storeAddress_eq_none_of_isTrap s hi] at hea; cases hea
  | fellThrough hi' | branched hi' | jumped hi' => subst hi'; cases hi
  | called hi' => obtain ⟨_, rfl⟩ | ⟨_, rfl⟩ := hi' <;> cases hi
  | reserved hi' => obtain ⟨rfl, -⟩ | ⟨rfl, -⟩ := hi' <;> cases hi
  | reservedFailed hi' => obtain rfl | rfl := hi' <;> cases hi

/-- Settles O42: R7, the PC and memory as every TRAP leaves them, the rest by the shape of the effect. -/
theorem trapFootprint : Obligations.TrapFootprint := by
  unfold Obligations.TrapFootprint
  intro i s t hw hi h
  have hc : Completed i s t := completed_of_wellFormed hw h
  obtain ⟨hregs, hcin, hcout⟩ := hc.footprint_of_isTrap hi
  refine ⟨⟨hc.reg_r7_of_isTrap hi, fun r h7 h0 => ?_, hc.pc_eq (writesPc_eq_false_of_isTrap hi), fun a => ?_⟩,
    fun hg hn => ⟨hregs .r0 fun _ => ⟨hg, hn⟩, hcin hg hn⟩, hcout⟩
  · rw [hregs r fun h => absurd h h0, State.reg_trapEntry, if_neg h7]
  · exact hc.memRead_eq (by rw [storeAddress_eq_none_of_isTrap s hi]; nofun)

end Sys2Proof.Machine
end

section
/-! The words of an image (spec/70_reset_and_hazards.md R273 to R275; O55, O56), the images that are a LoadError
(R273, R279; O55, O59), and what boot leaves in either outcome (R270, R277, R282; O60). -/

namespace Sys2Proof.Machine

/-! ### The words of an image -/

theorem imageWords_cons_cons (hi lo : Byte) (rest : List Byte) :
    imageWords (hi :: lo :: rest) = (imageWords rest).map ((hi ++ lo) :: ·) := rfl

/-- The bytes of an odd image are not whole words (R273). -/
theorem imageWords_eq_none_of_odd {image : List Byte} (h : image.length % 2 = 1) : imageWords image = none := by
  induction image using imageWords.induct with
  | case1 => cases h
  | case2 => rfl
  | case3 hi lo rest ih =>
    have hrest : rest.length % 2 = 1 := (Nat.add_mod_right rest.length 2).symm.trans h
    rw [imageWords_cons_cons, ih hrest, Option.map_none]

/-- Settles O56, two bytes at a time: the word they make is word 0, and those of the rest move up by one. -/
theorem imageWordsAreBigEndian : Obligations.ImageWordsAreBigEndian := by
  unfold Obligations.ImageWordsAreBigEndian
  intro image heven
  induction image using imageWords.induct with
  | case1 => exact ⟨[], rfl, rfl, nofun⟩
  | case2 => cases heven
  | case3 hi lo rest ih =>
    have hrest : rest.length % 2 = 0 := (Nat.add_mod_right rest.length 2).symm.trans heven
    obtain ⟨ws, hws, hlen, hword⟩ := ih hrest
    refine ⟨(hi ++ lo) :: ws, by rw [imageWords_cons_cons, hws, Option.map_some],
      by simp only [List.length_cons]; omega, fun k b c hb hc => ?_⟩
    cases k with
    | zero => cases hb; cases hc; rfl
    | succ k => exact hword k b c hb hc

/-! ### LoadError -/

theorem loadImage_eq_none_of_malformed (plausible : Word → Bool) {image : List Byte}
    (h : image = [] ∨ image.length % 2 = 1) : loadImage plausible image = none := by
  obtain rfl | hodd := h
  · rfl
  · rw [loadImage, imageWords_eq_none_of_odd hodd]

/-- Where the loader places the words of an image (R276, R278). -/
theorem loadImage_of_imageWords (plausible : Word → Bool) {image : List Byte} {w0 : Word} {ws : List Word}
    (h : imageWords image = some (w0 :: ws)) :
    loadImage plausible image =
      if plausible w0 then placeWords w0 ws else placeWords Config.startDefault (w0 :: ws) := by
  rw [loadImage, h]

theorem placeWords_eq_none {start : Word} {ws : List Word} (h : 65536 < start.toNat + ws.length) :
    placeWords start ws = none :=
  if_neg (Nat.not_le.mpr h)

theorem boot_of_loadImage_eq_none {plausible : Word → Bool} {image : List Byte} (s : State)
    (h : loadImage plausible image = none) : boot plausible image s = (resetCore s, .loadError) := by
  rw [boot, h]

@[simp] theorem State.memRead_resetCore (s : State) (a : Word) : (resetCore s).memRead a = 0x0000#16 := rfl

@[simp] theorem State.runState_resetCore (s : State) : (resetCore s).runState = .idle := rfl

/-- Settles O55: the loader answers no memory, so the core stays as reset left it. -/
theorem malformedImageIsLoadError : Obligations.MalformedImageIsLoadError := by
  unfold Obligations.MalformedImageIsLoadError
  intro plausible image s h
  rw [boot_of_loadImage_eq_none s (loadImage_eq_none_of_malformed plausible h)]
  exact ⟨rfl, State.runState_resetCore s, State.memRead_resetCore s⟩

/-- Settles O59: in either case of the loader the words do not fit, and the core stays as reset left it. -/
theorem overlongImageIsLoadError : Obligations.OverlongImageIsLoadError := by
  unfold Obligations.OverlongImageIsLoadError
  intro plausible image w0 ws s hws hlong
  have hnone : loadImage plausible image = none := by
    rw [loadImage_of_imageWords plausible hws]
    obtain ⟨h0, hlen⟩ | ⟨h0, hlen⟩ := hlong
    · rw [if_pos h0, placeWords_eq_none hlen]
    · rw [if_neg (by simp [h0]), placeWords_eq_none]
      rw [List.length_cons, show Config.startDefault.toNat = 0x3000 from rfl]; omega
  exact ⟨resetCore s, boot_of_loadImage_eq_none s hnone, State.runState_resetCore s, State.memRead_resetCore s,
    step_of_not_running (by simp)⟩

/-! ### What boot leaves -/

/-- A loaded memory is canonical: the words fit below MEMSIZE (log entry 1). -/
theorem wf_of_loadImage {plausible : Word → Bool} {image : List Byte} {start : Word} {m : Memory}
    (h : loadImage plausible image = some (start, m)) : Memory.wf m = true := by
  have hplaced : ∃ a ws, placeWords a ws = some (start, m) := by
    match hws : imageWords image with
    | none | some [] => rw [loadImage, hws] at h; cases h
    | some (w0 :: ws) =>
      rw [loadImage_of_imageWords plausible hws] at h
      split at h <;> exact ⟨_, _, h⟩
  obtain ⟨_, ws, hp⟩ := hplaced
  obtain ⟨hfit, hx⟩ := placeWords_eq_some.mp hp
  cases hx
  exact wf_loadWords ws _ [] hfit rfl

theorem boot_of_loadImage_eq_some {plausible : Word → Bool} {image : List Byte} {start : Word} {m : Memory}
    (s : State) (h : loadImage plausible image = some (start, m)) :
    boot plausible image s =
      ({ resetCore s with mem := m, pc := start, runState := .running }, .started start) := by
  rw [boot, h]

/-- The host's answers are all that a reset core has of the state before (log entry 11). -/
theorem resetCore_congr {s u : State} (hcin : u.cin = s.cin) (hcout : u.cout = s.cout) :
    resetCore u = resetCore s := by
  rw [resetCore, resetCore, hcin, hcout]

/-- Settles O60, by the loader's two outcomes: a reset core, and a reset core that runs a canonical memory. -/
theorem bootMeetsInvariant : Obligations.BootMeetsInvariant := by
  unfold Obligations.BootMeetsInvariant
  intro plausible image s
  obtain ⟨hmem, hcond, hcauses⟩ := resetMeetsInvariant
  match h : loadImage plausible image with
  | none =>
    rw [boot_of_loadImage_eq_none s h]
    refine ⟨⟨hmem, hcond, hcauses⟩, rfl, rfl, ⟨nofun, nofun⟩, fun u hcin hcout => ?_⟩
    rw [boot_of_loadImage_eq_none u h, resetCore_congr hcin hcout]
  | some (start, m) =>
    rw [boot_of_loadImage_eq_some s h]
    refine ⟨⟨wf_of_loadImage h, hcond, ⟨nofun, fun _ => rfl⟩, ⟨nofun, fun _ => rfl⟩⟩, rfl, rfl,
      ⟨fun _ => ⟨start, rfl, rfl⟩, fun _ => rfl⟩, fun u hcin hcout => ?_⟩
    rw [boot_of_loadImage_eq_some u h, resetCore_congr hcin hcout]

end Sys2Proof.Machine
end
